-- ==== Sys2Proof/Word.lean ====
section
/-! DEFINITION. The data word: spec/00_scope.md R5 and R9, with W = 64 (notes/assumptions/4.md). -/

namespace Sys2Proof

/-- W (WORD_BITS), the width of every data value, of pc and of rb (R5). -/
abbrev wordBits : Nat := 64

/-- A Word: W bits in two's complement, read as a signed integer by `BitVec.toInt` (R5, R9). -/
abbrev Word := BitVec 64

/-- The least and the greatest Word, as integers (R5). -/
abbrev minWord : Int := -9223372036854775808
abbrev maxWord : Int := 9223372036854775807

end Sys2Proof
end

