-- ==== Sys2Proof/Config.lean ====
section
/-! DEFINITION. The parameters of one block (spec/00_scope.md R5 to R7) and the one free input of the
environment (R7, INPUT_SOURCE). -/

namespace Sys2Proof

/-- HIGH_DIGITS (R7, 30_encoding.md R81): what the decoder does with decimal digits 5 and up. -/
inductive HighDigits where
  | ignore
  | fault
deriving DecidableEq, Repr

/-- The parameters of a block. They are held in the state as plain data, so that every statement about
all states is a statement about every parameter value; no step and no command changes them. -/
structure Config where
  /-- MEM_DEPTH, the number of memory words backed (R6), left OPEN by the spec. -/
  memDepth : Nat
  highDigits : HighDigits
deriving DecidableEq, Repr

/-- The constraint R6 puts on MEM_DEPTH: 1 <= MEM_DEPTH <= 2^(W-1)-1. -/
abbrev Config.legal (c : Config) : Prop := 1 ≤ c.memDepth ∧ c.memDepth ≤ 9223372036854775807

/-- The parameters State.reset takes. HIGH_DIGITS = ignore is fixed for this hardware (R7). MEM_DEPTH is
OPEN: DESIGN CHOICE, unsafe, the largest value R6 allows (notes/assumptions/2.md). -/
def Config.thisHardware : Config := { memDepth := 9223372036854775807, highDigits := .ignore }

/-- INPUT_SOURCE (R7, 42_io.md R163): the connected source's answer to its n-th undetermined poll, a value or
"not yet available". A free value: no body, so no proof can use what it is (notes/assumptions/6.md). -/
opaque Config.inputAnswer : Nat → Option Word

end Sys2Proof
end

