-- ==== Sys2Proof/Syntax.lean ====
section
/-! DEFINITION. Instructions as syntax: spec/30_encoding.md R80 to R92, and what a fault records,
spec/60_exceptions.md R250. -/

namespace Sys2Proof

/-- The three addressing modes (R83). -/
inductive Mode where
  | position
  | immediate
  | relative
deriving DecidableEq, Repr

/-- The ten defined opcodes (R86). -/
inductive Op where
  | add | mul | inp | out | jt | jf | lt | eq | arb | hlt
deriving DecidableEq, Repr

/-- What the decoder answers for a legal instruction word (R84): the opcode and all three modes, whatever the
opcode's number of parameters (R82). The length is `Op.len` of the opcode (R90). -/
structure Decoded where
  op : Op
  mode1 : Mode
  mode2 : Mode
  mode3 : Mode
deriving DecidableEq, Repr

/-- A parameter an instruction has: its mode and its operand word `raw_k` (R80, R87). -/
structure Param where
  mode : Mode
  raw : Word
deriving DecidableEq, Repr

/-- An instruction: the opcode with its parameters in order, one constructor per row of the opcode table (R86).
The mode digits of parameters an opcode does not have are checked by the decoder and read by nothing else
(R92), so they are not kept (notes/assumptions/11.md). -/
inductive Instr where
  | add (p1 p2 p3 : Param)
  | mul (p1 p2 p3 : Param)
  | inp (p1 : Param)
  | out (p1 : Param)
  | jt (p1 p2 : Param)
  | jf (p1 p2 : Param)
  | lt (p1 p2 p3 : Param)
  | eq (p1 p2 p3 : Param)
  | arb (p1 : Param)
  | hlt
deriving DecidableEq, Repr

/-- The fault causes (60_exceptions.md R250). `none` is cause 0, no fault. -/
inductive FaultCause where
  | none
  | invalidOpcode
  | badModeDigit
  | immediateWriteTarget
  | negativeAddress
  | addressOutOfRange
  | arithmeticOverflow
deriving DecidableEq, Repr

/-- The arguments of `raise Fault(cause, param, value)` (00_scope.md R13). -/
structure FaultInfo where
  cause : FaultCause
  param : Nat
  value : Int
deriving DecidableEq, Repr

/-- Why a sequence of words is no instruction: the instruction word is illegal (R84), or operand words are
missing. -/
inductive DecodeError where
  | illegal (f : FaultInfo)
  | truncated
deriving DecidableEq, Repr

end Sys2Proof
end

