-- ==== Sys2Proof/Machine/State.lean ====
section
/-! DEFINITION. The state of one block (spec/10_state.md), as plain data, and its value after reset
(spec/70_reset_and_hazards.md R280). -/

namespace Sys2Proof.Machine

/-- The run status (R23). -/
inductive Status where
  | running
  | halted
  | awaitingInput
  | producedOutput
  | faulted
deriving DecidableEq, Repr

/-- The memory array `M` (20_memory.md R50): pairs of an address and the Word it holds, in one canonical form
(`Memory.wf`): addresses strictly rising, no Word 0, since an unlisted address reads as 0 (R52). The memory has
no bytes (R56), so a cell holds a whole Word (notes/assumptions/1.md). -/
abbrev Memory := List (Nat × Word)

/-- The input source (42_io.md R163, R164), an agent of the environment. Absent: every poll finds no value (R283).
Connected: `answers` are the answers it gives to the next polls, in order, and after them come the free draws
`Config.inputAnswer drawn`, `drawn + 1`, … (notes/assumptions/6.md). -/
inductive InputSource where
  | absent
  | connected (answers : List (Option Word)) (drawn : Nat)
deriving DecidableEq, Repr

/-- What the core is doing for the host (45_host.md R220): nothing, a STEP (40_engine.md R119), or a RUN with its two
flags (R120). -/
inductive Activity where
  | idle
  | step
  | run (stopOnInput stopOnOutput : Bool)
deriving DecidableEq, Repr

/-- The whole state: the eleven pieces R20 lists (the feed register and the output latch each as one Option,
notes/assumptions/5.md), then the model's own fields (the block's parameters, the environment's two agents, the
command in progress). -/
structure State where
  /-- `pc` (R21) -/
  pc : Word
  /-- `rb` (R22) -/
  rb : Word
  /-- `M` (R50) -/
  mem : Memory
  /-- `status` (R23) -/
  status : Status
  /-- `fault_cause` (R25) -/
  faultCause : FaultCause
  /-- `fault_param` (R26), 2 bits -/
  faultParam : BitVec 2
  /-- `fault_value` (R26), W+1 bits, signed -/
  faultValue : BitVec 65
  /-- the feed register (R27): `some v` is feed_full = 1, feed_val = v -/
  feed : Option Word
  /-- the output latch (R28): `some v` is out_valid = 1, out_val = v -/
  out : Option Word
  /-- the parameters of the block (00_scope.md R5 to R7) -/
  config : Config
  /-- the input source (R163) -/
  source : InputSource
  /-- the values the output sink has received, oldest first (R171) -/
  sink : List Word
  /-- the command in progress (R220) -/
  activity : Activity
deriving DecidableEq, Repr

/-- Reasons a step of the model stops with a fault: none. Every fault of the spec is a state the machine goes to
(60_exceptions.md R258: status Faulted and the fault record written), so no meaning raises one of these and there
is nothing to be safe or unsafe about (notes/assumptions/10.md). -/
inductive Fault where
deriving DecidableEq, Repr

/-- Reasons an instruction has no meaning in the model. `notModelled`: raised by an arm of exec that has no meaning
yet (safe); no arm does. -/
inductive Refusal where
  | notModelled (mnemonic : String)
deriving DecidableEq, Repr

/-- The state after reset (R280), of a block with `Config.thisHardware`, no input source connected and nothing
emitted (notes/assumptions/2.md, 6.md, 7.md, 8.md for the model's own fields). -/
def State.reset : State where
  pc := 0
  rb := 0
  mem := []
  status := .running
  faultCause := .none
  faultParam := 0
  faultValue := 0
  feed := none
  out := none
  config := Config.thisHardware
  source := .absent
  sink := []
  activity := .idle

end Sys2Proof.Machine
end

