-- ==== Sys2Proof/Machine/Ops.lean ====
section
/-! DEFINITION. The operations over memory and registers that every meaning shares: memory access
(spec/20_memory.md), the address check (40_engine.md R112), taking a fault (60_exceptions.md R258), the input poll
and the output emission (42_io.md R163, R170), and the register image of LOAD, RESTORE and reset. -/

namespace Sys2Proof.Machine

/-! ## Memory -/

/-- The canonical form: addresses strictly rising, no entry that reads as an unlisted address does. -/
abbrev Memory.wf (m : Memory) : Prop := m.Pairwise (fun x y => x.1 < y.1) ∧ ∀ c ∈ m, c.2 ≠ 0#64

/-- Every listed address is below `depth`. -/
abbrev Memory.below (m : Memory) (depth : Nat) : Prop := ∀ c ∈ m, c.1 < depth

/-- What an address that no cell lists reads as: "unset addresses read as zero" (R52). -/
def Memory.unset : Word := 0#64

/-- `MemRead(a, 1)` (00_scope.md R11). -/
def Memory.read : Memory → Nat → Word
  | [], _ => Memory.unset
  | (b, v) :: rest, a => if a = b then v else Memory.read rest a

/-- `MemWrite(a, 1, v)` (00_scope.md R11), keeping the canonical form. -/
def Memory.write : Memory → Nat → Word → Memory
  | [], a, v => if v = Memory.unset then [] else [(a, v)]
  | (b, u) :: rest, a, v =>
    if a < b then (if v = Memory.unset then (b, u) :: rest else (a, v) :: (b, u) :: rest)
    else if a = b then (if v = Memory.unset then rest else (a, v) :: rest)
    else (b, u) :: Memory.write rest a v

/-- The image of a program whose first word goes to address `a` (R51). -/
def Memory.image : List Word → Nat → Memory
  | [], _ => []
  | v :: rest, a => if v = Memory.unset then Memory.image rest (a + 1) else (a, v) :: Memory.image rest (a + 1)

/-- The canonical memory of `depth` words that reads as the listed cells say (the first cell of an address
counts); cells at addresses the array does not have are no part of it (notes/assumptions/14.md). -/
def Memory.ofCells (depth : Nat) : List (Nat × Word) → Memory
  | [] => []
  | (a, v) :: rest =>
    if a < depth then Memory.write (Memory.ofCells depth rest) a v else Memory.ofCells depth rest

/-- `M[a]` of a state. -/
def State.read (s : State) (a : Nat) : Word := s.mem.read a

/-- `M[a] <- v`. -/
def State.write (s : State) (a : Nat) (v : Word) : State := { s with mem := s.mem.write a v }

/-! ## The address check -/

/-- `CheckAddr(a, k)` (R112): the address as an index of the array, or its fault. -/
def checkAddr (c : Config) (a : Int) (k : Nat) : Except FaultInfo Nat :=
  if a < 0 then .error ⟨.negativeAddress, k, a⟩
  else if (c.memDepth : Int) ≤ a then .error ⟨.addressOutOfRange, k, a⟩
  else .ok a.toNat

/-! ## Status -/

/-- Halted and Faulted are terminal (R23). -/
def Status.terminal : Status → Bool
  | .halted => true
  | .faulted => true
  | .running => false
  | .awaitingInput => false
  | .producedOutput => false

/-- The numeric code of a status, 3 bits (R23). -/
def Status.code : Status → BitVec 3
  | .running => 0
  | .halted => 1
  | .awaitingInput => 2
  | .producedOutput => 3
  | .faulted => 4

/-! ## Taking a fault -/

/-- Fault entry, the effect of `raise Fault(cause, param, value)` (R258): status and the fault record are written,
nothing else changes. There is no vector, no saved register beside the record, and no return (R259). -/
def raiseFault (f : FaultInfo) (s : State) : State :=
  { s with
    status := .faulted
    faultCause := f.cause
    faultParam := BitVec.ofNat 2 f.param
    faultValue := BitVec.ofInt 65 f.value }

/-- The end of an instruction begun in state s: the state its rule made, or, where it raised a fault, fault entry
from s itself, since nothing of the instruction's own effect has happened (R258). -/
def settle (s : State) : Except FaultInfo State → Host.Outcome State Fault Refusal
  | .ok t => .next t
  | .error f => .next (raiseFault f s)

/-- The leaving of a terminal status, and the start of every run: what LOAD, RESTORE and reset share (45_host.md
R222, R227). The block's parameters and the environment's agents are no part of it (R280). -/
def freshState (m : Memory) (pc rb : Word) (s : State) : State :=
  { s with
    pc := pc
    rb := rb
    mem := m
    status := .running
    faultCause := .none
    faultParam := 0
    faultValue := 0
    feed := none
    out := none }

/-! ## The program counter -/

/-- The instruction word `w` at the program counter, which overflow faults record (R250). -/
def State.instrWord (s : State) : Word := s.read s.pc.toInt.toNat

/-- Outcome `Next(ip + n)` (R117): pc moves past the instruction's n words. -/
def State.advance (s : State) (n : Nat) : State := { s with pc := s.pc + BitVec.ofNat 64 n }

/-- Outcome `Next(t)` for a jump target t (R117). -/
def State.jumpTo (s : State) (t : Word) : State := { s with pc := t }

/-! ## Input and output -/

/-- The source's answer to one poll, and the source after it (R163, R164): an answer that hands over a value is not
offered again. -/
def InputSource.poll : InputSource → Option Word × InputSource
  | .absent => (none, .absent)
  | .connected (a :: rest) n => (a, .connected rest n)
  | .connected [] n => (Config.inputAnswer n, .connected [] (n + 1))

/-- `Poll()` (R163): the feed register first, then the input source. -/
def pollInput (s : State) : Option Word × State :=
  match s.feed with
  | some v => (some v, { s with feed := none })
  | none => (s.source.poll.1, { s with source := s.source.poll.2 })

/-- Latch and emit an output value (R170, R171). -/
def emit (v : Word) (s : State) : State := { s with out := some v, sink := s.sink ++ [v] }

/-- The flag stop_on_output of the step: the RUN's, or true, the STEP command's, where no RUN is in progress (R117,
R119, R120; notes/assumptions/8.md). -/
def State.stopOnOutput (s : State) : Bool :=
  match s.activity with
  | .idle => true
  | .step => true
  | .run _ stopOnOutput => stopOnOutput

end Sys2Proof.Machine
end

