-- ==== Sys2Proof/Machine/Flags.lean ====
section
/-! DEFINITION. The core has no flags and no condition codes (spec/10_state.md R30). What stands in their place is
the ALU with its one signal beside the result, `alu_ovf` (41_alu.md R140, R145), and the overflow check. -/

namespace Sys2Proof.Machine

/-- `inWord(v)`: v is a Word (00_scope.md R9). -/
def inWord (v : Int) : Bool := decide (minWord ≤ v) && decide (v ≤ maxWord)

/-- The four ALU operations (R145). -/
inductive AluOp where
  | add
  | multiply
  | lessThan
  | equals
deriving DecidableEq, Repr

/-- `alu_op`, the select code, 2 bits (R145). -/
def aluSelect : AluOp → BitVec 2
  | .add => 0
  | .multiply => 1
  | .lessThan => 2
  | .equals => 3

/-- The exact result on Int (R141 to R144, R146). -/
def aluExact : AluOp → Int → Int → Int
  | .add, a, b => a + b
  | .multiply, a, b => a * b
  | .lessThan, a, b => if a < b then 1 else 0
  | .equals, a, b => if a = b then 1 else 0

/-- `alu_ovf` (R145): the exact result is not a Word. -/
def aluOvf (op : AluOp) (a b : Word) : Bool := !inWord (aluExact op a.toInt b.toInt)

/-- The ALU block's outputs `alu_ovf` and `alu_r` (R145); `alu_r` is none where it is not valid. -/
def aluBlock (op : AluOp) (a b : Word) : Bool × Option Word :=
  if aluOvf op a b then (true, none) else (false, some (BitVec.ofInt 64 (aluExact op a.toInt b.toInt)))

/-- `CheckResult(r)` (R140, R210): the exact result as a Word, or ArithmeticOverflow for parameter k, recording the
instruction word. -/
def checkResult (s : State) (k : Nat) (r : Int) : Except FaultInfo Word :=
  if inWord r then .ok (BitVec.ofInt 64 r) else .error ⟨.arithmeticOverflow, k, s.instrWord.toInt⟩

end Sys2Proof.Machine
end

