-- ==== Sys2Proof/WellFormed.lean ====
section
/-! DEFINITION. The one check on an instruction that its type does not make: a write target is never Immediate
(spec/30_encoding.md R88). -/

namespace Sys2Proof

/-- A write target's mode is Position or Relative (R88). -/
def Param.writable (p : Param) : Bool := p.mode != .immediate

/-- R88: parameter 3 of Add, Multiply, LessThan, Equals and parameter 1 of Input are write targets; every other
parameter may have any mode. -/
def Instr.wellFormed : Instr → Bool
  | .add _ _ p3 => p3.writable
  | .mul _ _ p3 => p3.writable
  | .inp p1 => p1.writable
  | .out _ => true
  | .jt _ _ => true
  | .jf _ _ => true
  | .lt _ _ p3 => p3.writable
  | .eq _ _ p3 => p3.writable
  | .arb _ => true
  | .hlt => true

end Sys2Proof
end

