-- ==== Sys2Proof/Decode.lean ====
section
/-! DEFINITION. The decoder of spec/30_encoding.md (R81 to R92), and after it the encoder (R95). -/

namespace Sys2Proof

/-! ## Digits, modes, opcodes -/

/-- `digit(w, k) = (w div 10^k) mod 10`, for w >= 0 (00_scope.md R10). -/
def digit (w k : Nat) : Nat := w / 10 ^ k % 10

/-- The mode of a mode digit; digits 3 to 9 name none (R83). -/
def modeOfDigit : Nat → Option Mode
  | 0 => some .position
  | 1 => some .immediate
  | 2 => some .relative
  | _ => none

/-- The digit of a mode (R83); also its 2-bit code on the decoder's ports (R91). -/
def modeDigit : Mode → Nat
  | .position => 0
  | .immediate => 1
  | .relative => 2

/-- The opcode of `w mod 100` (R86); every other value is undefined (R89). -/
def opOfCode : Nat → Option Op
  | 1 => some .add
  | 2 => some .mul
  | 3 => some .inp
  | 4 => some .out
  | 5 => some .jt
  | 6 => some .jf
  | 7 => some .lt
  | 8 => some .eq
  | 9 => some .arb
  | 99 => some .hlt
  | _ => none

/-- The number of an opcode (R86). -/
def opCode : Op → Nat
  | .add => 1
  | .mul => 2
  | .inp => 3
  | .out => 4
  | .jt => 5
  | .jf => 6
  | .lt => 7
  | .eq => 8
  | .arb => 9
  | .hlt => 99

/-- L(op), the number of words of an instruction (R86). -/
def opLen : Op → Nat
  | .add | .mul | .lt | .eq => 4
  | .inp | .out | .arb => 2
  | .jt | .jf => 3
  | .hlt => 1

/-- WriteTargets(op), the parameters an opcode stores to (R88). -/
def writeTargets : Op → List Nat
  | .add | .mul | .lt | .eq => [3]
  | .inp => [1]
  | .out | .jt | .jf | .arb | .hlt => []

/-- The decoded mode of parameter k. -/
def decodedMode (d : Decoded) (k : Nat) : Mode :=
  if k = 1 then d.mode1 else if k = 2 then d.mode2 else d.mode3

/-! ## The decoder -/

/-- The mode of parameter k of an instruction word w >= 0, or BadModeDigit (R84). -/
def decodeMode (w : Word) (k : Nat) : Except FaultInfo Mode :=
  match modeOfDigit (digit w.toNat (k + 1)) with
  | some m => .ok m
  | none => .error ⟨.badModeDigit, k, w.toInt⟩

/-- No write target is Immediate, or ImmediateWriteTarget (R84, R88). -/
def checkWriteTargets (w : Word) (d : Decoded) : Except FaultInfo Decoded :=
  match (writeTargets d.op).find? (fun k => decodedMode d k == .immediate) with
  | some k => .error ⟨.immediateWriteTarget, k, w.toInt⟩
  | none => .ok d

/-- True iff the word is refused for its high digits: only under HIGH_DIGITS = fault (R81). -/
def highDigitsRefused (hd : HighDigits) (w : Word) : Bool :=
  hd == .fault && decide (100000 ≤ w.toNat)

/-- Decode (R84), with the order of causes of R85. -/
def decodeWord (hd : HighDigits) (w : Word) : Except FaultInfo Decoded :=
  if w.toInt < 0 then .error ⟨.invalidOpcode, 0, w.toInt⟩
  else if highDigitsRefused hd w then .error ⟨.invalidOpcode, 0, w.toInt⟩
  else
    match opOfCode (w.toNat % 100) with
    | none => .error ⟨.invalidOpcode, 0, w.toInt⟩
    | some op => do
      let m1 ← decodeMode w 1
      let m2 ← decodeMode w 2
      let m3 ← decodeMode w 3
      checkWriteTargets w ⟨op, m1, m2, m3⟩

/-- Operand assembly (R80, R87): the instruction of a decoded word whose operand word k is `raw k`. -/
def buildInstr (d : Decoded) (raw : Nat → Word) : Instr :=
  let p1 : Param := ⟨d.mode1, raw 1⟩
  let p2 : Param := ⟨d.mode2, raw 2⟩
  let p3 : Param := ⟨d.mode3, raw 3⟩
  match d.op with
  | .add => .add p1 p2 p3
  | .mul => .mul p1 p2 p3
  | .inp => .inp p1
  | .out => .out p1
  | .jt => .jt p1 p2
  | .jf => .jf p1 p2
  | .lt => .lt p1 p2 p3
  | .eq => .eq p1 p2 p3
  | .arb => .arb p1
  | .hlt => .hlt

/-- The decoder on a sequence of words: the instruction and the words after it, or why there is none (R80,
R84). Total on any words. -/
def decode (hd : HighDigits) : List Word → Except DecodeError (Instr × List Word)
  | [] => .error .truncated
  | w :: rest =>
    match decodeWord hd w with
    | .error f => .error (.illegal f)
    | .ok d =>
      if rest.length < opLen d.op - 1 then .error .truncated
      else .ok (buildInstr d (fun k => rest.getD (k - 1) 0), rest.drop (opLen d.op - 1))

/-! ## The decoder's ports (R91) -/

/-- The numeric code of a fault cause, 3 bits (60_exceptions.md R250, 10_state.md R25). -/
def faultCauseCode : FaultCause → BitVec 3
  | .none => 0
  | .invalidOpcode => 1
  | .badModeDigit => 2
  | .immediateWriteTarget => 3
  | .negativeAddress => 4
  | .addressOutOfRange => 5
  | .arithmeticOverflow => 6

/-- The decoder block's outputs (R91): `dec_ok` and the signals that are valid with it. -/
inductive DecoderOut where
  | ok (op : BitVec 7) (len : BitVec 3) (mode1 mode2 mode3 : BitVec 2)
  | fault (cause : BitVec 3) (param : BitVec 2)
deriving DecidableEq, Repr

/-- The combinational decoder block (R91): its outputs are exactly Decode. -/
def decoderBlock (hd : HighDigits) (w : Word) : DecoderOut :=
  match decodeWord hd w with
  | .ok d => .ok (BitVec.ofNat 7 (opCode d.op)) (BitVec.ofNat 3 (opLen d.op)) (BitVec.ofNat 2 (modeDigit d.mode1))
      (BitVec.ofNat 2 (modeDigit d.mode2)) (BitVec.ofNat 2 (modeDigit d.mode3))
  | .error f => .fault (faultCauseCode f.cause) (BitVec.ofNat 2 f.param)

/-! ## The encoder (R95) -/

/-- `w = op + 100*d_1 + 1000*d_2 + 10000*d_3` (R95), the digits given. -/
def encodeWord (d : Decoded) : Word :=
  BitVec.ofNat 64 (opCode d.op + 100 * modeDigit d.mode1 + 1000 * modeDigit d.mode2 + 10000 * modeDigit d.mode3)

/-- An instruction's opcode and modes, Position (digit 0) for parameters it does not have (R95). -/
def shapeOf : Instr → Decoded
  | .add p1 p2 p3 => ⟨.add, p1.mode, p2.mode, p3.mode⟩
  | .mul p1 p2 p3 => ⟨.mul, p1.mode, p2.mode, p3.mode⟩
  | .inp p1 => ⟨.inp, p1.mode, .position, .position⟩
  | .out p1 => ⟨.out, p1.mode, .position, .position⟩
  | .jt p1 p2 => ⟨.jt, p1.mode, p2.mode, .position⟩
  | .jf p1 p2 => ⟨.jf, p1.mode, p2.mode, .position⟩
  | .lt p1 p2 p3 => ⟨.lt, p1.mode, p2.mode, p3.mode⟩
  | .eq p1 p2 p3 => ⟨.eq, p1.mode, p2.mode, p3.mode⟩
  | .arb p1 => ⟨.arb, p1.mode, .position, .position⟩
  | .hlt => ⟨.hlt, .position, .position, .position⟩

/-- An instruction's parameters in order: parameter k is entry k-1 (R80). -/
def instrParams : Instr → List Param
  | .add p1 p2 p3 => [p1, p2, p3]
  | .mul p1 p2 p3 => [p1, p2, p3]
  | .inp p1 => [p1]
  | .out p1 => [p1]
  | .jt p1 p2 => [p1, p2]
  | .jf p1 p2 => [p1, p2]
  | .lt p1 p2 p3 => [p1, p2, p3]
  | .eq p1 p2 p3 => [p1, p2, p3]
  | .arb p1 => [p1]
  | .hlt => []

/-- The words of an instruction: the canonical instruction word, then its operand words (R80, R95). -/
def encode (i : Instr) : List Word := encodeWord (shapeOf i) :: (instrParams i).map Param.raw

/-! ## Words given as one number -/

/-- The k-th 64-bit word of the number w, the least significant first (notes/assumptions/16.md). -/
def wordOfBits (nbits w k : Nat) : Word := BitVec.ofNat 64 (w % 2 ^ nbits / 2 ^ (64 * k))

/-- The words of the longest instruction, from an instruction's low `nbits` bits; the bits above are 0. -/
def wordsOfBits (nbits w : Nat) : List Word :=
  [wordOfBits nbits w 0, wordOfBits nbits w 1, wordOfBits nbits w 2, wordOfBits nbits w 3]

/-- What this hardware's decoder (HIGH_DIGITS = ignore) reads from an instruction whose bits are w. -/
def decodeTableWord (nbits w : Nat) : Option Instr :=
  match decode Config.thisHardware.highDigits (wordsOfBits nbits w) with
  | .ok (i, _) => some i
  | .error _ => none

end Sys2Proof
end

