-- ==== Sys2Proof/Machine/Operands.lean ====
section
/-! DEFINITION. Operand resolution (spec/40_engine.md R114 to R116) and the fetch of an instruction (R111, R117
steps 2 to 4). -/

namespace Sys2Proof.Machine

/-- The address a parameter names, exact on Int and not yet checked (R114). -/
def paramAddr (s : State) (k : Nat) (p : Param) : Int :=
  match p.mode with
  | .position => p.raw.toInt
  | .immediate => s.pc.toInt + k
  | .relative => s.rb.toInt + p.raw.toInt

/-- `addr(p_k)` (R114). -/
def resolve (s : State) (k : Nat) (p : Param) : Except FaultInfo Nat := checkAddr s.config (paramAddr s k p) k

/-- `read(p_k) = MemRead(addr(p_k), 1)` (R115). Immediate is address-of-self: it reads M[ip+k], the operand word
itself (notes/assumptions/12.md). -/
def readParam (s : State) (k : Nat) (p : Param) : Except FaultInfo Word := do
  let a ← resolve s k p
  .ok (s.read a)

/-- The address checks of the operand-word fetches at ip+k, ip+k+1, …, n of them, ascending (R117 step 4). -/
def checkOperandWords (c : Config) (ip : Int) : Nat → Nat → Except FaultInfo Unit
  | _, 0 => .ok ()
  | k, n + 1 => do
    let _ ← checkAddr c (ip + k) k
    checkOperandWords c ip (k + 1) n

/-- Fetch, decode and operand-word fetch (R117 steps 2 to 4): the instruction at pc, or the first fault. -/
def fetchInstr (s : State) : Except FaultInfo Instr := do
  let ip ← checkAddr s.config s.pc.toInt 0
  let d ← decodeWord s.config.highDigits (s.read ip)
  let _ ← checkOperandWords s.config s.pc.toInt 1 (opLen d.op - 1)
  .ok (buildInstr d (fun k => s.read (ip + k)))

end Sys2Proof.Machine
end

