-- ==== Sys2Proof/Machine/Alu.lean ====
section
/-! DEFINITION. Add, Multiply, LessThan, Equals (spec/41_alu.md R140 to R144). -/

namespace Sys2Proof.Machine

/-- The shape the four share: read p1, read p2, resolve the write target p3, check the exact result, then the one
write (R141 to R144, 60_exceptions.md R256). -/
def aluInstr (op : AluOp) (p1 p2 p3 : Param) (s : State) : Except FaultInfo State := do
  let a ← readParam s 1 p1
  let b ← readParam s 2 p2
  let d ← resolve s 3 p3
  let r ← checkResult s 3 (aluExact op a.toInt b.toInt)
  .ok ((s.write d r).advance 4)

/-- R141. -/
def execAdd (p1 p2 p3 : Param) (s : State) : Host.Outcome State Fault Refusal := settle s (aluInstr .add p1 p2 p3 s)

/-- R142. -/
def execMul (p1 p2 p3 : Param) (s : State) : Host.Outcome State Fault Refusal :=
  settle s (aluInstr .multiply p1 p2 p3 s)

/-- R143. -/
def execLt (p1 p2 p3 : Param) (s : State) : Host.Outcome State Fault Refusal :=
  settle s (aluInstr .lessThan p1 p2 p3 s)

/-- R144. -/
def execEq (p1 p2 p3 : Param) (s : State) : Host.Outcome State Fault Refusal := settle s (aluInstr .equals p1 p2 p3 s)

end Sys2Proof.Machine
end

