-- ==== Sys2Proof/Machine/Control.lean ====
section
/-! DEFINITION. JumpIfTrue, JumpIfFalse, Halt (spec/43_control.md R190 to R194). -/

namespace Sys2Proof.Machine

/-- The shape of both jumps: p1 and p2 are both resolved, in that order, before the condition selects (R194). A
target that is no valid address faults at the next fetch, not here (R190). -/
def jumpInstr (taken : Word → Bool) (p1 p2 : Param) (s : State) : Except FaultInfo State := do
  let a ← readParam s 1 p1
  let t ← readParam s 2 p2
  .ok (if taken a then s.jumpTo t else s.advance 3)

/-- R190. -/
def execJt (p1 p2 : Param) (s : State) : Host.Outcome State Fault Refusal :=
  settle s (jumpInstr (fun a => a != 0) p1 p2 s)

/-- R191. -/
def execJf (p1 p2 : Param) (s : State) : Host.Outcome State Fault Refusal :=
  settle s (jumpInstr (fun a => a == 0) p1 p2 s)

/-- R192: status becomes Halted; pc stays at the Halt. -/
def execHlt (s : State) : Host.Outcome State Fault Refusal := .next { s with status := .halted }

end Sys2Proof.Machine
end

