-- ==== Sys2Proof/Machine/Io.lean ====
section
/-! DEFINITION. Input and Output (spec/42_io.md R160 to R174). -/

namespace Sys2Proof.Machine

/-- R160, R161: the write address is resolved before the poll; a poll that finds a value is followed by the write,
one that finds none by the AwaitingInput suspension, which leaves pc at the Input (R165). -/
def execInp (p1 : Param) (s : State) : Host.Outcome State Fault Refusal :=
  settle s (do
    let d ← resolve s 1 p1
    match pollInput s with
    | (some v, s') => .ok ((s'.write d v).advance 2)
    | (none, s') => .ok { s' with status := .awaitingInput })

/-- R170: read, latch, emit, advance; then ProducedOutput if the step stops on output. -/
def execOut (p1 : Param) (s : State) : Host.Outcome State Fault Refusal :=
  settle s (do
    let v ← readParam s 1 p1
    let t := (emit v s).advance 2
    .ok (if s.stopOnOutput then { t with status := .producedOutput } else t))

end Sys2Proof.Machine
end

