-- ==== Sys2Proof/Machine/RelativeBase.lean ====
section
/-! DEFINITION. AdjustRelativeBase (spec/44_relative_base.md R210, R212). -/

namespace Sys2Proof.Machine

/-- R210: rb grows by the value read, exact; a sum that is not a Word faults and rb keeps its value. -/
def execArb (p1 : Param) (s : State) : Host.Outcome State Fault Refusal :=
  settle s (do
    let v ← readParam s 1 p1
    let r ← checkResult s 1 (s.rb.toInt + v.toInt)
    .ok ({ s with rb := r }.advance 2))

end Sys2Proof.Machine
end

