-- ==== Sys2Proof/Machine/Step.lean ====
section
/-! DEFINITION. One step of the core (spec/40_engine.md R117, R118), and the placing of an instruction where it is
fetched. -/

namespace Sys2Proof.Machine

/-- Step 1 of R117: status <- Running. -/
def State.begin (s : State) : State := { s with status := .running }

/-- One step (R117): fetch, decode, operand fetch, then the instruction; a fault on the way is taken. A step begun
with a terminal status changes nothing (R118). -/
def step (s : State) : Host.Outcome State Fault Refusal :=
  if s.status.terminal then .next s
  else
    match fetchInstr s.begin with
    | .error f => .next (raiseFault f s.begin)
    | .ok i => exec i s.begin

/-- The words placed at consecutive addresses from `a`, those the array has. -/
def State.place (s : State) : List Word → Nat → State
  | [], _ => s
  | w :: rest, a => State.place (if a < s.config.memDepth then s.write a w else s) rest (a + 1)

/-- s with the instruction whose bits are w stored where step fetches its next instruction: at pc, or, where pc is
no address at which the longest instruction fits, at 0 with pc moved there; a terminal status becomes Running
(notes/assumptions/15.md). -/
def State.withFetchWord (s : State) (nbits w : Nat) : State :=
  let pc : Word := if 0 ≤ s.pc.toInt ∧ s.pc.toInt + 4 ≤ s.config.memDepth then s.pc else 0
  let status : Status := if s.status.terminal then .running else s.status
  State.place { s with pc := pc, status := status } (wordsOfBits nbits w) pc.toInt.toNat

end Sys2Proof.Machine
end

