-- ==== Sys2Proof/Machine/HostPort.lean ====
section
/-! DEFINITION. The host command port (spec/45_host.md, with STEP and RUN of 40_engine.md R119, R120) and the reset
input (70_reset_and_hazards.md R280). A command is a transaction: it takes the state to a state and answers with one
response. STEP and RUN, which run steps, are in progress (`State.activity`) from their issue to their response, under
`tick`, so that reset can fall in between. -/

namespace Sys2Proof.Machine

/-- A Snapshot (R226): pc, rb and a copy of all of M. -/
structure Snapshot where
  pc : Word
  rb : Word
  mem : Memory
deriving DecidableEq, Repr

/-- The nine commands (R221). -/
inductive Command where
  | load (program : List Word)
  | step
  | run (stopOnInput stopOnOutput : Bool)
  | readMemory (a : Int)
  | writeMemory (a : Int) (v : Word)
  | snapshot
  | restore (image : Snapshot)
  | feed (v : Word)
  | takeOutput
deriving DecidableEq, Repr

/-- The response codes (R221). -/
inductive RespCode where
  | ok
  | inputUnderflow
  | feedOverrun
  | noOutput
  | hostNegativeAddress
  | hostAddressOutOfRange
  | imageTooLarge
deriving DecidableEq, Repr

/-- What `resp_value` may carry (R221). -/
inductive RespValue where
  | word (v : Word)
  | snapshot (image : Snapshot)
deriving DecidableEq, Repr

/-- A response (10_state.md R31): the code, the status after the command, a value where the command returns one,
and the fault record. -/
structure Response where
  code : RespCode
  status : Status
  value : Option RespValue
  faultCause : FaultCause
  faultParam : BitVec 2
  faultValue : BitVec 65
deriving DecidableEq, Repr

/-- The command codes (R221). -/
def Command.code : Command → Nat
  | .load _ => 0
  | .step => 1
  | .run _ _ => 2
  | .readMemory _ => 3
  | .writeMemory _ _ => 4
  | .snapshot => 5
  | .restore _ => 6
  | .feed _ => 7
  | .takeOutput => 8

/-- The response codes' numbers (R221). -/
def RespCode.code : RespCode → Nat
  | .ok => 0
  | .inputUnderflow => 1
  | .feedOverrun => 2
  | .noOutput => 3
  | .hostNegativeAddress => 4
  | .hostAddressOutOfRange => 5
  | .imageTooLarge => 6

/-- The response a command leaves with (R31). -/
def respond (code : RespCode) (value : Option RespValue) (s : State) : Response :=
  { code := code, status := s.status, value := value,
    faultCause := s.faultCause, faultParam := s.faultParam, faultValue := s.faultValue }

/-- The state one step leads to. `step` answers a next state from every state, so the last two cases are never
taken. -/
def stepState (s : State) : State :=
  match step s with
  | .next t => t
  | .fault _ => s
  | .refused _ => s

/-- The output value a STEP or RUN returns: `out_val`, where it ended at ProducedOutput (R119, R120, 42_io.md
R174). -/
def outputValue (s : State) : Option RespValue :=
  if s.status = .producedOutput then s.out.map .word else none

/-- The address check of peek and poke (R224, R225). -/
def hostAddr (c : Config) (a : Int) : Except RespCode Nat :=
  if a < 0 then .error .hostNegativeAddress
  else if (c.memDepth : Int) ≤ a then .error .hostAddressOutOfRange
  else .ok a.toNat

/-- LOAD (R222). -/
def loadProgram (program : List Word) (s : State) : State × Response :=
  if s.config.memDepth < program.length then (s, respond .imageTooLarge none s)
  else
    let t := freshState (Memory.image program 0) 0 0 s
    (t, respond .ok none t)

/-- The issue of a STEP or a RUN: the core is no longer idle, and the response is still to come (R220; 40_engine.md
R119, R120). -/
def startCommand (activity : Activity) (s : State) : State × Option Response := ({ s with activity := activity }, none)

/-- The end of a STEP or a RUN: the core is idle again and answers. -/
def finishCommand (code : RespCode) (s : State) : State × Option Response :=
  ({ s with activity := .idle }, some (respond code (outputValue s) s))

/-- The code a RUN answers with when it stops (R120, R122). -/
def runCode (stopOnInput : Bool) (status : Status) : RespCode :=
  if status = .awaitingInput ∧ stopOnInput = false then .inputUnderflow else .ok

/-- READ_MEMORY (R224). -/
def peek (a : Int) (s : State) : Response :=
  match hostAddr s.config a with
  | .error code => respond code none s
  | .ok n => respond .ok (some (.word (s.read n))) s

/-- WRITE_MEMORY (R225). -/
def poke (a : Int) (v : Word) (s : State) : State × Response :=
  match hostAddr s.config a with
  | .error code => (s, respond code none s)
  | .ok n => (s.write n v, respond .ok none (s.write n v))

/-- SNAPSHOT (R226). -/
def takeSnapshot (s : State) : Snapshot := { pc := s.pc, rb := s.rb, mem := s.mem }

/-- RESTORE (R227). A host-built Snapshot's memory is taken cell by cell, so that the state's memory keeps its
canonical form (notes/assumptions/14.md). -/
def restoreSnapshot (image : Snapshot) (s : State) : State :=
  freshState (Memory.ofCells s.config.memDepth image.mem) image.pc image.rb s

/-- FEED (R230). -/
def feedInput (v : Word) (s : State) : State × Response :=
  match s.feed with
  | some _ => (s, respond .feedOverrun none s)
  | none => ({ s with feed := some v }, respond .ok none s)

/-- TAKE_OUTPUT (R231). -/
def takeOutput (s : State) : Response :=
  match s.out with
  | none => respond .noOutput none s
  | some v => respond .ok (some (.word v)) s

/-- What an idle core does with a command. -/
def accept (c : Command) (s : State) : State × Option Response :=
  match c with
  | .load program => ((loadProgram program s).1, some (loadProgram program s).2)
  | .step => startCommand .step s
  | .run stopOnInput stopOnOutput => startCommand (.run stopOnInput stopOnOutput) s
  | .readMemory a => (s, some (peek a s))
  | .writeMemory a v => ((poke a v s).1, some (poke a v s).2)
  | .snapshot => (s, some (respond .ok (some (.snapshot (takeSnapshot s))) s))
  | .restore image => (restoreSnapshot image s, some (respond .ok none (restoreSnapshot image s)))
  | .feed v => ((feedInput v s).1, some (feedInput v s).2)
  | .takeOutput => (s, some (takeOutput s))

/-- A command issued: accepted only while the core is idle; during a STEP or a RUN it is not accepted, changes nothing
and gets no response (R220, 93_implementation_defined.md U15; notes/assumptions/13.md). -/
def issue (c : Command) (s : State) : State × Option Response :=
  match s.activity with
  | .idle => accept c s
  | .step => (s, none)
  | .run _ _ => (s, none)

/-- One turn of the command in progress: a step, which changes nothing in a terminal status (40_engine.md R118), and then
the response of a STEP (R119), or of a RUN if the step left a status other than Running (R120). An idle core waits
(60_exceptions.md R275). -/
def tick (s : State) : State × Option Response :=
  match s.activity with
  | .idle => (s, none)
  | .step => finishCommand .ok (stepState s)
  | .run stopOnInput _ =>
    let t := stepState s
    if t.status = .running then (t, none) else finishCommand (runCode stopOnInput t.status) t

/-- A STEP that nothing interrupts: issued, its one turn, its response (40_engine.md R119). -/
def stepCommand (s : State) : State × Option Response := tick (issue .step s).1

/-- At most n turns of a RUN in progress, up to its response. -/
def runTicks : Nat → State → State × Option Response
  | 0, s => (s, none)
  | n + 1, s =>
    match tick s with
    | (t, some r) => (t, some r)
    | (t, none) => runTicks n t

/-- The reset input (70_reset_and_hazards.md R280): the state LOAD of the empty program gives, in any state and at any
time; a STEP or a RUN in progress is abandoned. -/
def resetPort (s : State) : State := { freshState [] 0 0 s with activity := .idle }

/-- Reset inside a step of the command in progress, after the step's poll or emission and before any response: of the
step only what the source handed over and the sink received remains (R280; notes/assumptions/13.md). In an idle core
there is no step to fall into. -/
def resetInStep (s : State) : State :=
  match s.activity with
  | .idle => resetPort s
  | .step => resetPort (stepState s)
  | .run _ _ => resetPort (stepState s)

/-- Everything that can happen to a block: a command, a turn of the command in progress, reset before such a turn or
inside it, and the environment connecting an input source (70_reset_and_hazards.md R283). -/
inductive Move where
  | command (c : Command)
  | tick
  | reset
  | resetInStep
  | connect (source : InputSource)
deriving DecidableEq, Repr

/-- The state a move leads to. -/
def applyMove (m : Move) (s : State) : State :=
  match m with
  | .command c => (issue c s).1
  | .tick => (tick s).1
  | .reset => resetPort s
  | .resetInStep => Sys2Proof.Machine.resetInStep s
  | .connect source => { s with source := source }

/-- The response a move sends. Reset sends none, and a command it abandons none either (R280). -/
def moveResponse (m : Move) (s : State) : Option Response :=
  match m with
  | .command c => (issue c s).2
  | .tick => (tick s).2
  | .reset => none
  | .resetInStep => none
  | .connect _ => none

end Sys2Proof.Machine
end

