-- ==== Sys2Proof/Safety.lean ====
section
/-! DEFINITION. What a legal state is, and what counts as a safe run. -/

namespace Sys2Proof.Machine

/-- What the fault record holds per cause (spec/60_exceptions.md R250): the parameter, and for an address fault the
offending address, exact in W+1 bits (10_state.md R26). -/
def State.recordOk (s : State) : Bool :=
  match s.faultCause with
  | .none => s.faultParam == 0 && s.faultValue == 0
  | .invalidOpcode => s.faultParam == 0
  | .badModeDigit => s.faultParam != 0
  | .immediateWriteTarget => s.faultParam == 1 || s.faultParam == 3
  | .negativeAddress => decide (s.faultValue.toInt < 0)
  | .addressOutOfRange => decide ((s.config.memDepth : Int) ≤ s.faultValue.toInt)
  | .arithmeticOverflow => s.faultParam == 1 || s.faultParam == 3

/-- The legal states: MEM_DEPTH in its range (R6), memory in canonical form and inside the array (20_memory.md R50),
a fault cause exactly when Faulted (10_state.md R25), and a record that fits the cause (R250). -/
abbrev State.Inv (s : State) : Prop :=
  s.config.legal ∧ s.mem.wf ∧ s.mem.below s.config.memDepth ∧
    (s.faultCause = .none ↔ s.status ≠ .faulted) ∧ s.recordOk = true

/-- A safe state: the machine has not faulted. -/
abbrev State.safe (s : State) : Prop := s.status ≠ .faulted

end Sys2Proof.Machine
end

