-- ==== Sys2Proof/Certificates/Slice0/Obligations.lean ====
section
/-! DEFINITION. The statements for the provers, from the numbered rules of spec/. Each docstring names the rules. A
statement about "every state" is also about every value of the parameters MEM_DEPTH and HIGH_DIGITS and every
input source, which the state holds. -/

open Sys2Proof Sys2Proof.Machine

/-! ## Encoding and the decoder (spec/30_encoding.md) -/

/-- R80, R84, R95: decoding the words of a well-formed instruction gives the instruction back, with every operand word
and every mode, under both settings of HIGH_DIGITS, whatever words follow. -/
def Obligations.DecodeInvertsEncode : Prop :=
  ∀ (hd : HighDigits) (i : Instr) (rest : List Word),
    i.wellFormed = true → decode hd (encode i ++ rest) = .ok (i, rest)

/-- R81, R84: a legal word is not negative and is, but for its decimal digits 5 and up, the re-encoding of its opcode and
its three mode digits, the digits of parameters the opcode does not have included. -/
def Obligations.LegalWordIsItsEncodingModuloHighDigits : Prop :=
  ∀ (hd : HighDigits) (w : Word) (d : Decoded),
    decodeWord hd w = .ok d → 0 ≤ w.toInt ∧ (encodeWord d).toNat = w.toNat % 100000

/-- R84, R86, R83, R88: which words decode, and to what, by the arithmetic on the word's decimal digits. -/
def Obligations.DecodeAcceptsExactlyTheLegalWords : Prop :=
  ∀ (w : Word) (d : Decoded),
    decodeWord .ignore w = .ok d ↔
      0 ≤ w.toInt ∧ opCode d.op = w.toNat % 100 ∧
        modeDigit d.mode1 = w.toNat / 100 % 10 ∧ modeDigit d.mode2 = w.toNat / 1000 % 10 ∧
        modeDigit d.mode3 = w.toNat / 10000 % 10 ∧
        ∀ k ∈ writeTargets d.op, decodedMode d k ≠ .immediate

/-- R85: the first cause in the order negative word, undefined opcode, bad digit 1, 2, 3, Immediate write target; and
the two example words. -/
def Obligations.DecoderReportsTheFirstCause : Prop :=
  (∀ w : Word,
    let op := w.toNat % 100
    let d1 := w.toNat / 100 % 10
    let d2 := w.toNat / 1000 % 10
    let d3 := w.toNat / 10000 % 10
    let legal := op ∈ [1, 2, 3, 4, 5, 6, 7, 8, 9, 99]
    (w.toInt < 0 → decodeWord .ignore w = .error ⟨.invalidOpcode, 0, w.toInt⟩) ∧
    (0 ≤ w.toInt ∧ ¬ legal → decodeWord .ignore w = .error ⟨.invalidOpcode, 0, w.toInt⟩) ∧
    (0 ≤ w.toInt ∧ legal ∧ 2 < d1 → decodeWord .ignore w = .error ⟨.badModeDigit, 1, w.toInt⟩) ∧
    (0 ≤ w.toInt ∧ legal ∧ d1 ≤ 2 ∧ 2 < d2 → decodeWord .ignore w = .error ⟨.badModeDigit, 2, w.toInt⟩) ∧
    (0 ≤ w.toInt ∧ legal ∧ d1 ≤ 2 ∧ d2 ≤ 2 ∧ 2 < d3 →
      decodeWord .ignore w = .error ⟨.badModeDigit, 3, w.toInt⟩) ∧
    (0 ≤ w.toInt ∧ d1 ≤ 2 ∧ d2 ≤ 2 ∧ d3 ≤ 2 ∧ op ∈ [1, 2, 7, 8] ∧ d3 = 1 →
      decodeWord .ignore w = .error ⟨.immediateWriteTarget, 3, w.toInt⟩) ∧
    (0 ≤ w.toInt ∧ d1 ≤ 2 ∧ d2 ≤ 2 ∧ d3 ≤ 2 ∧ op = 3 ∧ d1 = 1 →
      decodeWord .ignore w = .error ⟨.immediateWriteTarget, 1, w.toInt⟩)) ∧
  decodeWord .ignore 3000 = .error ⟨.invalidOpcode, 0, 3000⟩ ∧
  decodeWord .ignore 30001 = .error ⟨.badModeDigit, 3, 30001⟩

/-- R81, R95: under HIGH_DIGITS = ignore, w + 100000*j decodes as w does, a fault differing only in the word it records;
under HIGH_DIGITS = fault every w >= 100000 faults InvalidOpcode and no other word decodes otherwise. -/
def Obligations.HighDigitsAreIgnoredOrFault : Prop :=
  (∀ (w v : Word) (j : Nat), 0 ≤ w.toInt → v.toInt = w.toInt + 100000 * j →
    (∀ d, decodeWord .ignore v = .ok d ↔ decodeWord .ignore w = .ok d) ∧
    (∀ c k, decodeWord .ignore v = .error ⟨c, k, v.toInt⟩ ↔ decodeWord .ignore w = .error ⟨c, k, w.toInt⟩)) ∧
  (∀ w : Word, 100000 ≤ w.toInt → decodeWord .fault w = .error ⟨.invalidOpcode, 0, w.toInt⟩) ∧
  (∀ w : Word, w.toInt < 100000 → decodeWord .fault w = decodeWord .ignore w)

/-- R92: the mode digits of parameters an opcode does not have are checked, and nothing else reads them: not the rest of
the decoder (two words with the same opcode and the same digits for the parameters it has, the other mode digits at
most 2, are both legal or both refused, with the same cause and parameter), and not operand assembly; and the three
example words. -/
def Obligations.UnusedModeDigitsAreCheckedAndNotRead : Prop :=
  (∀ w : Word, 0 ≤ w.toInt → w.toNat % 100 ∈ [1, 2, 3, 4, 5, 6, 7, 8, 9, 99] →
    (2 < w.toNat / 100 % 10 ∨ 2 < w.toNat / 1000 % 10 ∨ 2 < w.toNat / 10000 % 10) →
    ∃ k, decodeWord .ignore w = .error ⟨.badModeDigit, k, w.toInt⟩) ∧
  (∀ (v w : Word) (op : Op), 0 ≤ v.toInt → 0 ≤ w.toInt → v.toNat % 100 = opCode op → w.toNat % 100 = opCode op →
    (∀ k, 1 ≤ k → k < opLen op → digit v.toNat (k + 1) = digit w.toNat (k + 1)) →
    (∀ k, opLen op ≤ k → k ≤ 3 → digit v.toNat (k + 1) ≤ 2 ∧ digit w.toNat (k + 1) ≤ 2) →
    ((∃ d, decodeWord .ignore v = .ok d) ↔ ∃ d, decodeWord .ignore w = .ok d) ∧
    ∀ c k, decodeWord .ignore v = .error ⟨c, k, v.toInt⟩ ↔ decodeWord .ignore w = .error ⟨c, k, w.toInt⟩) ∧
  (∀ (d e : Decoded) (raw : Nat → Word), d.op = e.op →
    (∀ k, 1 ≤ k → k < opLen d.op → decodedMode d k = decodedMode e k) → buildInstr d raw = buildInstr e raw) ∧
  decodeWord .ignore 199 = .ok ⟨.hlt, .immediate, .position, .position⟩ ∧
  decodeWord .ignore 399 = .error ⟨.badModeDigit, 1, 399⟩ ∧
  decodeWord .ignore 10004 = .ok ⟨.out, .position, .position, .immediate⟩

/-- R95, R86: words written out from the decimal encoding, one of each family, decode to the instructions they stand
for. -/
def Obligations.SampleWordsDecode : Prop :=
  decode .ignore [1102, 34915192, 34915192, 7] = .ok (.mul ⟨.immediate, 34915192⟩ ⟨.immediate, 34915192⟩ ⟨.position, 7⟩, []) ∧
  decode .ignore [203, 5] = .ok (.inp ⟨.relative, 5⟩, []) ∧
  decode .ignore [1206, 0, 22] = .ok (.jf ⟨.relative, 0⟩ ⟨.immediate, 22⟩, []) ∧
  decode .ignore [109, -1] = .ok (.arb ⟨.immediate, -1⟩, []) ∧
  decode .ignore [99] = .ok (.hlt, [])

/-! ## Memory (spec/20_memory.md) -/

/-- R52, R53: memories in canonical form that read alike at every address are the same data, so nothing can tell an
address that was never written from one holding 0. -/
def Obligations.CanonicalMemoriesThatReadAlikeAreEqual : Prop :=
  ∀ m n : Memory, m.wf → n.wf → (∀ a, m.read a = n.read a) → m = n

/-- R58, R62: a step changes at most one word of memory. -/
def Obligations.StepWritesAtMostOneWord : Prop :=
  ∀ s t : State, step s = .next t → ∀ a b, t.read a ≠ s.read a → t.read b ≠ s.read b → a = b

/-- R55, R66, R88, R116: a word a step changes is the resolved write target of the instruction it ran, whose mode is
not Immediate. -/
def Obligations.MemoryChangesOnlyAtTheWriteTarget : Prop :=
  ∀ (s t : State) (a : Nat), step s = .next t → t.read a ≠ s.read a →
    ∃ i k p, fetchInstr s.begin = .ok i ∧ k ∈ writeTargets (shapeOf i).op ∧ (instrParams i)[k - 1]? = some p ∧
      p.mode ≠ .immediate ∧ resolve s.begin k p = .ok a

/-! ## The step (spec/40_engine.md) -/

/-- R117: when the words at pc decode to an instruction i, a step begun in a status that is not terminal is exec of i,
after status <- Running. -/
def Obligations.StepRunsTheDecodedInstruction : Prop :=
  ∀ (s : State) (i : Instr) (ws : List Word),
    s.status.terminal = false → 0 ≤ s.pc.toInt → s.pc.toInt + ws.length ≤ s.config.memDepth →
    (∀ k, k < ws.length → s.read (s.pc.toInt.toNat + k) = ws.getD k 0) →
    decode s.config.highDigits ws = .ok (i, []) →
    step s = exec i { s with status := .running }

/-- R258, R118: a step answers a next state from every state; the machine has no other outcome. -/
def Obligations.StepAlwaysAnswersANextState : Prop := ∀ s : State, ∃ t, step s = .next t

/-- R118, R259: a step in a terminal status changes nothing, nor do STEP and RUN, which answer OK with the status as it
was; only LOAD, RESTORE and reset leave a terminal status, and each clears the fault record. -/
def Obligations.TerminalStatusIsLeftOnlyByLoadRestoreReset : Prop :=
  ∀ s : State, s.status.terminal = true →
    step s = .next s ∧
    (s.activity = .idle → stepCommand s = (s, some (respond .ok none s)) ∧
      ∀ si so, tick (issue (.run si so) s).1 = (s, some (respond .ok none s))) ∧
    (∀ m, (applyMove m s).status ≠ s.status →
      m = .reset ∨ m = .resetInStep ∨ (∃ program, m = .command (.load program)) ∨
        ∃ image, m = .command (.restore image)) ∧
    (∀ m, (m = .reset ∨ m = .resetInStep ∨ (s.activity = .idle ∧
          ((∃ program, m = .command (.load program) ∧ program.length ≤ s.config.memDepth) ∨
            ∃ image, m = .command (.restore image)))) →
      (applyMove m s).status = .running ∧ (applyMove m s).faultCause = .none ∧ (applyMove m s).faultParam = 0 ∧
        (applyMove m s).faultValue = 0)

/-- R111, R113, R253, R252: the fetch at an invalid pc faults with param 0 and value pc, and pc keeps its value; nothing
but status and the fault record changes. -/
def Obligations.FetchAtAnInvalidPcFaults : Prop :=
  ∀ s : State, s.config.legal → s.status.terminal = false →
    (s.pc.toInt < 0 →
      ∃ t, step s = .next t ∧ t.faultValue.toInt = s.pc.toInt ∧
        t = { s with status := .faulted, faultCause := .negativeAddress, faultParam := 0, faultValue := t.faultValue }) ∧
    (s.config.memDepth ≤ s.pc.toInt →
      ∃ t, step s = .next t ∧ t.faultValue.toInt = s.pc.toInt ∧
        t = { s with status := .faulted, faultCause := .addressOutOfRange, faultParam := 0, faultValue := t.faultValue })

/-- R117 step 3, R84, R258: an illegal instruction word faults with the decoder's cause, parameter and value. -/
def Obligations.IllegalWordFaultsAsDecoded : Prop :=
  ∀ (s : State) (c : FaultCause) (k : Nat) (v : Int), s.status.terminal = false →
    0 ≤ s.pc.toInt → s.pc.toInt < s.config.memDepth →
    decodeWord s.config.highDigits (s.read s.pc.toInt.toNat) = .error ⟨c, k, v⟩ →
    v = (s.read s.pc.toInt.toNat).toInt ∧ k ≤ 3 ∧
    ∃ t, step s = .next t ∧ t.faultParam.toNat = k ∧ t.faultValue.toInt = v ∧
      t = { s with status := .faulted, faultCause := c, faultParam := t.faultParam, faultValue := t.faultValue }

/-- R117 step 4, R252, R256: an instruction that runs over the end of the array faults AddressOutOfRange at the first
operand word outside it. -/
def Obligations.OperandWordOutsideTheArrayFaults : Prop :=
  ∀ (s : State) (d : Decoded), s.config.legal → s.status.terminal = false →
    0 ≤ s.pc.toInt → s.pc.toInt < s.config.memDepth →
    decodeWord s.config.highDigits (s.read s.pc.toInt.toNat) = .ok d →
    s.config.memDepth < s.pc.toInt + opLen d.op →
    ∃ t, step s = .next t ∧ (t.faultParam.toNat : Int) = s.config.memDepth - s.pc.toInt ∧
      t.faultValue.toInt = s.config.memDepth ∧
      t = { s with status := .faulted, faultCause := .addressOutOfRange, faultParam := t.faultParam, faultValue := t.faultValue }

/-- R258: a step that faults changes nothing but status and the fault record, which then names a cause; STEP and RUN
answer it with OK and Faulted. -/
def Obligations.FaultChangesOnlyStatusAndRecord : Prop :=
  ∀ s t : State, step s = .next t → s.status ≠ .faulted → t.status = .faulted →
    t = { s with status := .faulted, faultCause := t.faultCause, faultParam := t.faultParam, faultValue := t.faultValue } ∧
    t.faultCause ≠ .none ∧
    (s.activity = .idle → ∃ r, stepCommand s = (t, some r) ∧ r.code = .ok ∧ r.status = .faulted) ∧
    (∀ si so, s.activity = .run si so →
      ∃ r, tick s = ({ t with activity := .idle }, some r) ∧ r.code = .ok ∧ r.status = .faulted)

/-- R250, R26, R252, R253: what a fault records. w is the instruction word. An address fault records the address
exactly: with param 0 it is pc; with param k the address parameter k of the fetched instruction names or, for
AddressOutOfRange, pc + k, the address of an operand word that the array does not have. -/
def Obligations.FaultRecordNamesTheOffence : Prop :=
  ∀ s t : State, s.config.legal → s.status.terminal = false → step s = .next t → t.status = .faulted →
    let w := s.read s.pc.toInt.toNat
    let op := w.toNat % 100
    let k := t.faultParam.toNat
    let parameter := ∃ i p, fetchInstr s.begin = .ok i ∧ 1 ≤ k ∧ (instrParams i)[k - 1]? = some p ∧
      t.faultValue.toInt = paramAddr s.begin k p
    match t.faultCause with
    | .none => False
    | .invalidOpcode => k = 0 ∧ t.faultValue.toInt = w.toInt ∧
        (w.toInt < 0 ∨ op ∉ [1, 2, 3, 4, 5, 6, 7, 8, 9, 99] ∨ (s.config.highDigits = .fault ∧ 100000 ≤ w.toInt))
    | .badModeDigit => 1 ≤ k ∧ t.faultValue.toInt = w.toInt ∧ 2 < w.toNat / 10 ^ (k + 1) % 10
    | .immediateWriteTarget => t.faultValue.toInt = w.toInt ∧ w.toNat / 10 ^ (k + 1) % 10 = 1 ∧
        ((k = 3 ∧ op ∈ [1, 2, 7, 8]) ∨ (k = 1 ∧ op = 3))
    | .negativeAddress => t.faultValue.toInt < 0 ∧ ((k = 0 ∧ t.faultValue.toInt = s.pc.toInt) ∨ parameter)
    | .addressOutOfRange => s.config.memDepth ≤ t.faultValue.toInt ∧
        ((k = 0 ∧ t.faultValue.toInt = s.pc.toInt) ∨ parameter ∨
          (∃ d, decodeWord s.config.highDigits w = .ok d ∧ 1 ≤ k ∧ k < opLen d.op ∧
            t.faultValue.toInt = s.pc.toInt + k))
    | .arithmeticOverflow => t.faultValue.toInt = w.toInt ∧ ((k = 3 ∧ op ∈ [1, 2]) ∨ (k = 1 ∧ op = 9))

/-- R21, R193: a step that does not fault leaves pc at the instruction (Halt, a suspended Input), at the target a taken
jump read, or past the instruction's words, exactly and without wrapping. -/
def Obligations.PcIsKeptJumpsOrAdvancesExactly : Prop :=
  ∀ (s t : State) (i : Instr), s.config.legal → s.status.terminal = false → fetchInstr s.begin = .ok i →
    step s = .next t → t.status ≠ .faulted →
    (t.pc = s.pc ∧ ((i = .hlt ∧ t.status = .halted) ∨ ((∃ p1, i = .inp p1) ∧ t.status = .awaitingInput))) ∨
    (∃ p1 p2 a, ((i = .jt p1 p2 ∧ a ≠ 0) ∨ (i = .jf p1 p2 ∧ a = 0)) ∧ readParam s.begin 1 p1 = .ok a ∧
      readParam s.begin 2 p2 = .ok t.pc) ∨
    (t.pc.toInt = s.pc.toInt + opLen (shapeOf i).op ∧ t.pc.toInt ≤ s.config.memDepth ∧ i ≠ .hlt)

/-- R125, R173: the status a step leaves. Halted only by Halt; the two suspensions only by an Input with no value and by
an Output that is to stop; no move but a turn of a STEP or RUN in progress enters a suspension. -/
def Obligations.SuspensionPointsAreExactlyTwo : Prop :=
  (∀ s t : State, s.status.terminal = false → step s = .next t →
    (t.status = .halted ↔ fetchInstr s.begin = .ok .hlt) ∧
    (t.status = .awaitingInput ↔ ∃ p1 d, fetchInstr s.begin = .ok (.inp p1) ∧ resolve s.begin 1 p1 = .ok d ∧
      (pollInput s).1 = none) ∧
    (t.status = .producedOutput ↔ ∃ p1 v, fetchInstr s.begin = .ok (.out p1) ∧ readParam s.begin 1 p1 = .ok v ∧
      s.stopOnOutput = true)) ∧
  (∀ (s : State) (m : Move), (applyMove m s).status = .awaitingInput ∨ (applyMove m s).status = .producedOutput →
    (applyMove m s).status ≠ s.status → m = .tick ∧ s.activity ≠ .idle)

/-- R22, R197: a step changes rb only by AdjustRelativeBase. -/
def Obligations.OnlyAdjustRelativeBaseChangesRb : Prop :=
  ∀ s t : State, step s = .next t → t.rb ≠ s.rb →
    s.status.terminal = false ∧ ∃ p1, fetchInstr s.begin = .ok (.arb p1)

/-- R162, R164: a step takes a value from the feed register or polls the source only by an Input whose address
resolved; the source is polled only where the feed register was empty. -/
def Obligations.OnlyInputTakesAValue : Prop :=
  ∀ s t : State, step s = .next t →
    (t.feed ≠ s.feed ∨ t.source ≠ s.source →
      ∃ p1 d, fetchInstr s.begin = .ok (.inp p1) ∧ resolve s.begin 1 p1 = .ok d) ∧
    (t.feed ≠ s.feed → t.feed = none ∧ t.source = s.source) ∧
    (t.source ≠ s.source → s.feed = none ∧ t.feed = none ∧ t.source = s.source.poll.2)

/-- R170, R171, R28: a step writes the output latch and the output sink only by an Output, which emits one value and
latches that value. -/
def Obligations.OnlyOutputEmits : Prop :=
  ∀ s t : State, step s = .next t → (t.out ≠ s.out ∨ t.sink ≠ s.sink) →
    ∃ p1 v, fetchInstr s.begin = .ok (.out p1) ∧ readParam s.begin 1 p1 = .ok v ∧
      t.out = some v ∧ t.sink = s.sink ++ [v]

/-- R228, R117: a step reads nothing but memory, pc, rb, the feed register and the input answers (with the parameters
and the stop flag): two states alike in these go on alike, emit alike, latch alike what they emit and fault with the
same record, whatever the output latch, the fault record, the sink's past and a suspension's status were. -/
def Obligations.StepReadsOnlyMemoryPcRbAndInputs : Prop :=
  ∀ s s' t t' : State, s.status.terminal = false → s'.status.terminal = false →
    s.pc = s'.pc → s.rb = s'.rb → s.mem = s'.mem → s.feed = s'.feed → s.source = s'.source →
    s.config = s'.config → s.activity = s'.activity →
    step s = .next t → step s' = .next t' →
    t.pc = t'.pc ∧ t.rb = t'.rb ∧ t.mem = t'.mem ∧ t.status = t'.status ∧ t.feed = t'.feed ∧ t.source = t'.source ∧
      (t.status = .faulted →
        t.faultCause = t'.faultCause ∧ t.faultParam = t'.faultParam ∧ t.faultValue = t'.faultValue) ∧
      ∃ emitted, t.sink = s.sink ++ emitted ∧ t'.sink = s'.sink ++ emitted ∧ (emitted ≠ [] → t.out = t'.out)

/-! ## Operand resolution -/

/-- R112, R114: the address a parameter resolves to, per mode, and the two faults of its check. -/
def Obligations.ResolvedAddressPerMode : Prop :=
  ∀ (s : State) (k : Nat) (raw : Word) (mode : Mode) (a : Int),
    (mode = .position ∧ a = raw.toInt ∨ mode = .immediate ∧ a = s.pc.toInt + k ∨
      mode = .relative ∧ a = s.rb.toInt + raw.toInt) →
    (a < 0 → resolve s k ⟨mode, raw⟩ = .error ⟨.negativeAddress, k, a⟩) ∧
    (s.config.memDepth ≤ a → resolve s k ⟨mode, raw⟩ = .error ⟨.addressOutOfRange, k, a⟩) ∧
    (0 ≤ a ∧ a < s.config.memDepth → resolve s k ⟨mode, raw⟩ = .ok a.toNat)

/-- R115, R14: in a step, raw_k is M[ip+k]; an Immediate parameter reads raw_k itself, a Position parameter M[raw_k], a
Relative one M[rb + raw_k], where these are addresses of the array. -/
def Obligations.ReadParameterPerMode : Prop :=
  ∀ (s : State) (i : Instr) (k : Nat) (p : Param), fetchInstr s = .ok i → 1 ≤ k → (instrParams i)[k - 1]? = some p →
    p.raw = s.read (s.pc.toInt.toNat + k) ∧
    (p.mode = .immediate → readParam s k p = .ok p.raw) ∧
    (p.mode = .position → 0 ≤ p.raw.toInt → p.raw.toInt < s.config.memDepth →
      readParam s k p = .ok (s.read p.raw.toInt.toNat)) ∧
    (p.mode = .relative → 0 ≤ s.rb.toInt + p.raw.toInt → s.rb.toInt + p.raw.toInt < s.config.memDepth →
      readParam s k p = .ok (s.read (s.rb.toInt + p.raw.toInt).toNat))

/-- R256: parameter faults come in ascending order, before any effect; each is taken from the state the instruction began
in. -/
def Obligations.ParameterFaultsComeInAscendingOrder : Prop :=
  ∀ (s : State) (p1 p2 p3 : Param) (f : FaultInfo) (a b : Word),
    (resolve s 1 p1 = .error f →
      ∀ i ∈ [Instr.add p1 p2 p3, .mul p1 p2 p3, .lt p1 p2 p3, .eq p1 p2 p3, .inp p1, .out p1, .jt p1 p2, .jf p1 p2,
        .arb p1], exec i s = .next (raiseFault f s)) ∧
    (readParam s 1 p1 = .ok a → resolve s 2 p2 = .error f →
      ∀ i ∈ [Instr.add p1 p2 p3, .mul p1 p2 p3, .lt p1 p2 p3, .eq p1 p2 p3, .jt p1 p2, .jf p1 p2],
        exec i s = .next (raiseFault f s)) ∧
    (readParam s 1 p1 = .ok a → readParam s 2 p2 = .ok b → resolve s 3 p3 = .error f →
      ∀ i ∈ [Instr.add p1 p2 p3, .mul p1 p2 p3, .lt p1 p2 p3, .eq p1 p2 p3], exec i s = .next (raiseFault f s))

/-! ## The ALU instructions (spec/41_alu.md) -/

/-- R141: Add stores the exact sum at the resolved write target and advances pc by 4; nothing else changes. -/
def Obligations.AddStoresTheExactSum : Prop :=
  ∀ (s : State) (p1 p2 p3 : Param) (a b : Word) (d : Nat), s.mem.wf →
    readParam s 1 p1 = .ok a → readParam s 2 p2 = .ok b → resolve s 3 p3 = .ok d →
    minWord ≤ a.toInt + b.toInt → a.toInt + b.toInt ≤ maxWord →
    ∃ t, exec (.add p1 p2 p3) s = .next t ∧ (t.read d).toInt = a.toInt + b.toInt ∧
      (∀ x, x ≠ d → t.read x = s.read x) ∧ t.pc = s.pc + 4 ∧ t = { s with mem := t.mem, pc := t.pc }

/-- R142: Multiply stores the exact signed product at the resolved write target and advances pc by 4; nothing else
changes. -/
def Obligations.MultiplyStoresTheExactProduct : Prop :=
  ∀ (s : State) (p1 p2 p3 : Param) (a b : Word) (d : Nat), s.mem.wf →
    readParam s 1 p1 = .ok a → readParam s 2 p2 = .ok b → resolve s 3 p3 = .ok d →
    minWord ≤ a.toInt * b.toInt → a.toInt * b.toInt ≤ maxWord →
    ∃ t, exec (.mul p1 p2 p3) s = .next t ∧ (t.read d).toInt = a.toInt * b.toInt ∧
      (∀ x, x ≠ d → t.read x = s.read x) ∧ t.pc = s.pc + 4 ∧ t = { s with mem := t.mem, pc := t.pc }

/-- R143, R144: LessThan stores 1 if p1 < p2, signed, else 0; Equals stores 1 if p1 = p2, else 0; both for all operand
values; pc advances by 4 and nothing else changes. -/
def Obligations.CompareStoresOneOrZero : Prop :=
  ∀ (s : State) (p1 p2 p3 : Param) (a b : Word) (d : Nat), s.mem.wf →
    readParam s 1 p1 = .ok a → readParam s 2 p2 = .ok b → resolve s 3 p3 = .ok d →
    (∃ t, exec (.lt p1 p2 p3) s = .next t ∧ t.read d = (if a.toInt < b.toInt then 1 else 0) ∧
      (∀ x, x ≠ d → t.read x = s.read x) ∧ t.pc = s.pc + 4 ∧ t = { s with mem := t.mem, pc := t.pc }) ∧
    (∃ t, exec (.eq p1 p2 p3) s = .next t ∧ t.read d = (if a = b then 1 else 0) ∧
      (∀ x, x ≠ d → t.read x = s.read x) ∧ t.pc = s.pc + 4 ∧ t = { s with mem := t.mem, pc := t.pc })

/-- R255, R140: Add and Multiply raise ArithmeticOverflow (param 3), and AdjustRelativeBase (param 1), when the exact
result is no Word, recording the instruction word and changing nothing else; and no ALU instruction or
AdjustRelativeBase raises it otherwise, LessThan and Equals never. -/
def Obligations.OverflowFaultsExactlyWhenNoWord : Prop :=
  (∀ (s : State) (p1 p2 p3 : Param) (a b : Word) (d : Nat),
    readParam s 1 p1 = .ok a → readParam s 2 p2 = .ok b → resolve s 3 p3 = .ok d →
    ∀ i r, (i = .add p1 p2 p3 ∧ r = a.toInt + b.toInt ∨ i = .mul p1 p2 p3 ∧ r = a.toInt * b.toInt) →
      ¬ (minWord ≤ r ∧ r ≤ maxWord) →
      ∃ t, exec i s = .next t ∧ t.faultValue.toInt = (s.read s.pc.toInt.toNat).toInt ∧
        t = { s with status := .faulted, faultCause := .arithmeticOverflow, faultParam := 3, faultValue := t.faultValue }) ∧
  (∀ (s : State) (p1 : Param) (v : Word), readParam s 1 p1 = .ok v →
    ¬ (minWord ≤ s.rb.toInt + v.toInt ∧ s.rb.toInt + v.toInt ≤ maxWord) →
    ∃ t, exec (.arb p1) s = .next t ∧ t.faultValue.toInt = (s.read s.pc.toInt.toNat).toInt ∧
      t = { s with status := .faulted, faultCause := .arithmeticOverflow, faultParam := 1, faultValue := t.faultValue }) ∧
  (∀ (s t : State) (i : Instr), exec i s = .next t → s.faultCause ≠ .arithmeticOverflow →
    t.faultCause = .arithmeticOverflow →
    ∃ p1 p2 p3 a b, readParam s 1 p1 = .ok a ∧
      ((i = .add p1 p2 p3 ∧ readParam s 2 p2 = .ok b ∧ ¬ (minWord ≤ a.toInt + b.toInt ∧ a.toInt + b.toInt ≤ maxWord)) ∨
       (i = .mul p1 p2 p3 ∧ readParam s 2 p2 = .ok b ∧ ¬ (minWord ≤ a.toInt * b.toInt ∧ a.toInt * b.toInt ≤ maxWord)) ∨
       (i = .arb p1 ∧ ¬ (minWord ≤ s.rb.toInt + a.toInt ∧ s.rb.toInt + a.toInt ≤ maxWord))))

/-- R145: the ALU block. The select codes; alu_ovf is 1 exactly when Add or Multiply gives an exact result that is not a Word; where
it is 0, alu_r is the exact result, a signed comparison or an equality. -/
def Obligations.AluBlockIsExactOrSignalsOverflow : Prop :=
  ∀ a b r : Word,
    (aluBlock .add a b = (false, some r) ↔ r.toInt = a.toInt + b.toInt) ∧
    (aluBlock .multiply a b = (false, some r) ↔ r.toInt = a.toInt * b.toInt) ∧
    aluBlock .lessThan a b = (false, some (if a.toInt < b.toInt then 1 else 0)) ∧
    aluBlock .equals a b = (false, some (if a = b then 1 else 0)) ∧
    ((aluBlock .add a b).1 = true ↔ ¬ (minWord ≤ a.toInt + b.toInt ∧ a.toInt + b.toInt ≤ maxWord)) ∧
    ((aluBlock .multiply a b).1 = true ↔ ¬ (minWord ≤ a.toInt * b.toInt ∧ a.toInt * b.toInt ≤ maxWord)) ∧
    aluSelect .add = 0 ∧ aluSelect .multiply = 1 ∧ aluSelect .lessThan = 2 ∧ aluSelect .equals = 3

/-! ## Input and output (spec/42_io.md) -/

/-- R160, R163: an Input whose address resolves takes the feed register's value first, without polling the source; it
stores the value there, clears the feed register and advances pc by 2; nothing else changes. -/
def Obligations.InputStoresTheFeedRegisterFirst : Prop :=
  ∀ (s : State) (p1 : Param) (d : Nat) (v : Word), s.mem.wf → resolve s 1 p1 = .ok d → s.feed = some v →
    ∃ t, exec (.inp p1) s = .next t ∧ t.read d = v ∧ (∀ x, x ≠ d → t.read x = s.read x) ∧ t.pc = s.pc + 2 ∧
      t = { s with mem := t.mem, pc := t.pc, feed := none }

/-- R160, R163, R164: with the feed register empty, an Input stores the value the source answers, a listed answer or a
free draw, and the source does not offer that answer again; nothing else changes. How a source is held as data is the
model's choice (notes/assumptions/6.md). -/
def Obligations.InputStoresTheSourcesAnswer : Prop :=
  ∀ (s : State) (p1 : Param) (d : Nat) (v : Word) (after : InputSource), s.mem.wf → resolve s 1 p1 = .ok d →
    s.feed = none →
    ((∃ rest n, s.source = .connected (some v :: rest) n ∧ after = .connected rest n) ∨
      (∃ n, s.source = .connected [] n ∧ Config.inputAnswer n = some v ∧ after = .connected [] (n + 1))) →
    ∃ t, exec (.inp p1) s = .next t ∧ t.read d = v ∧ (∀ x, x ≠ d → t.read x = s.read x) ∧ t.pc = s.pc + 2 ∧
      t = { s with mem := t.mem, pc := t.pc, source := after }

/-- R165, R126: an Input that finds no value changes status to AwaitingInput and nothing else of the core: pc, rb, memory,
the feed register, the output latch and the fault record keep their values. The three forms of a source without a value
are the model's (notes/assumptions/6.md). -/
def Obligations.InputWithoutAValueOnlySuspends : Prop :=
  ∀ (s : State) (p1 : Param) (d : Nat), resolve s 1 p1 = .ok d → s.feed = none →
    (s.source = .absent ∨ (∃ rest n, s.source = .connected (none :: rest) n) ∨
      (∃ n, s.source = .connected [] n ∧ Config.inputAnswer n = none)) →
    ∃ t, exec (.inp p1) s = .next t ∧ t = { s with status := .awaitingInput, source := t.source }

/-- R161: an Input that faults on its address takes no value from the feed register or the source; a poll that returns a
value is always followed by its write. -/
def Obligations.FaultingInputTakesNoValue : Prop :=
  ∀ (s t : State) (p1 : Param), s.mem.wf → exec (.inp p1) s = .next t →
    (∀ f, resolve s 1 p1 = .error f →
      t.status = .faulted ∧ t.feed = s.feed ∧ t.source = s.source ∧ t.mem = s.mem ∧ t.pc = s.pc) ∧
    (∀ d v, resolve s 1 p1 = .ok d → (pollInput s).1 = some v → t.read d = v)

/-- R166, R167: while no value is available each STEP ends in the same AwaitingInput state; a FEED does not resume the
core; the next STEP consumes exactly the fed value and advances. "No value is available" is said here of an absent
source (notes/assumptions/6.md). -/
def Obligations.SuspendedInputResumesWithTheFedValue : Prop :=
  ∀ (s : State) (p1 : Param) (d : Nat) (v : Word), s.mem.wf → s.status.terminal = false → s.activity = .idle →
    fetchInstr s.begin = .ok (.inp p1) → resolve s.begin 1 p1 = .ok d → s.feed = none → s.source = .absent →
    let t := { s with status := .awaitingInput }
    (stepCommand s).1 = t ∧ (stepCommand t).1 = t ∧
    (issue (.feed v) t).1 = { t with feed := some v } ∧
    ∃ u, (stepCommand (issue (.feed v) t).1).1 = u ∧ u.read d = v ∧ (∀ x, x ≠ d → u.read x = s.read x) ∧
      u.pc = s.pc + 2 ∧ u = { s with mem := u.mem, pc := u.pc, status := .running }

/-- R170, R119, R121: Output latches and emits the value read and advances pc by 2; status becomes ProducedOutput in a
STEP or in a RUN that stops on output, and stays as it is in a RUN that does not; nothing else changes. The flag is read
from the field `activity` (notes/assumptions/8.md). -/
def Obligations.OutputLatchesEmitsAndAdvances : Prop :=
  ∀ (s : State) (p1 : Param) (v : Word), readParam s 1 p1 = .ok v →
    ∃ t, exec (.out p1) s = .next t ∧ t.out = some v ∧ t.sink = s.sink ++ [v] ∧ t.pc = s.pc + 2 ∧
      (s.activity = .idle ∨ s.activity = .step → t.status = .producedOutput) ∧
      (∀ si, s.activity = .run si true → t.status = .producedOutput) ∧
      (∀ si, s.activity = .run si false → t.status = s.status) ∧
      t = { s with out := t.out, sink := t.sink, pc := t.pc, status := t.status }

/-! ## Control transfer (spec/43_control.md) -/

/-- R190, R193: JumpIfTrue goes to the target read when the condition is not 0 (whatever the target), else past its
three words; nothing but pc changes. -/
def Obligations.JumpIfTrueSelectsThePc : Prop :=
  ∀ (s : State) (p1 p2 : Param) (a v : Word), readParam s 1 p1 = .ok a → readParam s 2 p2 = .ok v →
    exec (.jt p1 p2) s = .next { s with pc := if a.toInt ≠ 0 then v else s.pc + 3 }

/-- R191, R193: JumpIfFalse, with the condition inverted. -/
def Obligations.JumpIfFalseSelectsThePc : Prop :=
  ∀ (s : State) (p1 p2 : Param) (a v : Word), readParam s 1 p1 = .ok a → readParam s 2 p2 = .ok v →
    exec (.jf p1 p2) s = .next { s with pc := if a.toInt = 0 then v else s.pc + 3 }

/-- R194: both parameters of a jump are resolved, p1 first, before the condition selects: a parameter that does not
resolve faults whether or not the jump would be taken, with its address recorded exactly. -/
def Obligations.JumpResolvesBothParameters : Prop :=
  ∀ (s : State) (p1 p2 : Param) (i : Instr), (i = .jt p1 p2 ∨ i = .jf p1 p2) →
    (¬ (0 ≤ paramAddr s 1 p1 ∧ paramAddr s 1 p1 < s.config.memDepth) →
      ∃ t, exec i s = .next t ∧ t.faultCause = (if paramAddr s 1 p1 < 0 then .negativeAddress else .addressOutOfRange) ∧
        t.faultParam = 1 ∧ t.faultValue.toInt = paramAddr s 1 p1 ∧
        t = { s with status := .faulted, faultCause := t.faultCause, faultParam := t.faultParam, faultValue := t.faultValue }) ∧
    (∀ a, readParam s 1 p1 = .ok a → ¬ (0 ≤ paramAddr s 2 p2 ∧ paramAddr s 2 p2 < s.config.memDepth) →
      ∃ t, exec i s = .next t ∧ t.faultCause = (if paramAddr s 2 p2 < 0 then .negativeAddress else .addressOutOfRange) ∧
        t.faultParam = 2 ∧ t.faultValue.toInt = paramAddr s 2 p2 ∧
        t = { s with status := .faulted, faultCause := t.faultCause, faultParam := t.faultParam, faultValue := t.faultValue })

/-- R192: Halt sets status Halted; pc stays at the Halt and nothing else changes. -/
def Obligations.HaltOnlySetsStatus : Prop := ∀ s : State, exec .hlt s = .next { s with status := .halted }

/-! ## AdjustRelativeBase (spec/44_relative_base.md) -/

/-- R210, R212: rb becomes the exact sum of the old rb and the value read (through the old rb) when that is a Word, and pc
advances by 2; otherwise rb keeps its value and the step faults with ArithmeticOverflow, param 1, recording the
instruction word. Nothing else changes, in either case. -/
def Obligations.AdjustRelativeBaseAddsExactly : Prop :=
  ∀ (s : State) (p1 : Param) (v : Word), readParam s 1 p1 = .ok v →
    (minWord ≤ s.rb.toInt + v.toInt ∧ s.rb.toInt + v.toInt ≤ maxWord →
      ∃ t, exec (.arb p1) s = .next t ∧ t.rb.toInt = s.rb.toInt + v.toInt ∧ t.pc = s.pc + 2 ∧
        t = { s with rb := t.rb, pc := t.pc }) ∧
    (¬ (minWord ≤ s.rb.toInt + v.toInt ∧ s.rb.toInt + v.toInt ≤ maxWord) →
      ∃ t, exec (.arb p1) s = .next t ∧ t.faultValue.toInt = (s.read s.pc.toInt.toNat).toInt ∧
        t = { s with status := .faulted, faultCause := .arithmeticOverflow, faultParam := 1,
                     faultValue := t.faultValue })

/-- R211: after AdjustRelativeBase with read value k from rb = 0, a Relative parameter with operand word d resolves to
address k + d in every state with that rb. -/
def Obligations.RelativeParameterResolvesAfterAdjust : Prop :=
  ∀ (s : State) (p1 : Param) (k : Word), s.rb = 0 → readParam s 1 p1 = .ok k →
    ∃ t, exec (.arb p1) s = .next t ∧
      ∀ (u : State) (n : Nat) (d : Word), u.rb = t.rb → 0 ≤ k.toInt + d.toInt →
        k.toInt + d.toInt < u.config.memDepth → resolve u n ⟨.relative, d⟩ = .ok (k.toInt + d.toInt).toNat

/-! ## Invariants -/

/-- R20 to R28, R50, R250: every step keeps the legal states legal (memory canonical and inside the array, a fault cause
exactly when Faulted, a record that fits its cause, MEM_DEPTH in range). -/
def Obligations.StepKeepsTheInvariant : Prop := ∀ s t : State, s.Inv → step s = .next t → t.Inv

/-- R280: the state after reset is legal, with no command in progress; its MEM_DEPTH is the model's choice
(notes/assumptions/2.md). -/
def Obligations.ResetStateIsLegal : Prop := State.reset.Inv ∧ State.reset.activity = .idle

/-- R220, R125, R25: everything that can happen to a block (each host command, each turn of a STEP or RUN, reset between
and inside steps, the connecting of a source) keeps the legal states legal; and a turn after which a command is still in
progress leaves status Running. -/
def Obligations.EveryMoveKeepsTheInvariant : Prop :=
  ∀ (m : Move) (s : State), s.Inv →
    (applyMove m s).Inv ∧ (m = .tick → (applyMove m s).activity ≠ .idle → (applyMove m s).status = .running)

/-- R7, R6, R81: no move changes the block's parameters. -/
def Obligations.ParametersNeverChange : Prop := ∀ (m : Move) (s : State), (applyMove m s).config = s.config

/-! ## Host commands (spec/45_host.md) -/

/-- R222, R51: LOAD in any status builds the image from address 0, zero elsewhere, with pc = rb = 0, status Running, the
fault record, the feed register and the output latch clear; a program longer than MEM_DEPTH is answered
ImageTooLarge and changes nothing. -/
def Obligations.LoadBuildsAFreshMachine : Prop :=
  ∀ (s : State) (program : List Word), s.activity = .idle →
    (program.length ≤ s.config.memDepth →
      ∃ t r, issue (.load program) s = (t, some r) ∧ r.code = .ok ∧ (∀ a, t.read a = program.getD a 0) ∧
        t = { s with mem := t.mem, pc := 0, rb := 0, status := .running, faultCause := .none, faultParam := 0,
                     faultValue := 0, feed := none, out := none }) ∧
    (s.config.memDepth < program.length → ∃ r, issue (.load program) s = (s, some r) ∧ r.code = .imageTooLarge)

/-- R223, R224, R225: peek and poke, in any status. An address outside the array is answered by its error and changes
nothing; a peek returns M[a]; a poke changes the one word and nothing else. -/
def Obligations.PeekAndPokeReachOneWord : Prop :=
  ∀ (s : State) (a : Int) (v : Word), s.activity = .idle → s.mem.wf →
    (a < 0 → (∃ r, issue (.readMemory a) s = (s, some r) ∧ r.code = .hostNegativeAddress) ∧
      ∃ r, issue (.writeMemory a v) s = (s, some r) ∧ r.code = .hostNegativeAddress) ∧
    (s.config.memDepth ≤ a → (∃ r, issue (.readMemory a) s = (s, some r) ∧ r.code = .hostAddressOutOfRange) ∧
      ∃ r, issue (.writeMemory a v) s = (s, some r) ∧ r.code = .hostAddressOutOfRange) ∧
    (0 ≤ a ∧ a < s.config.memDepth →
      (∃ r, issue (.readMemory a) s = (s, some r) ∧ r.code = .ok ∧ r.value = some (.word (s.read a.toNat))) ∧
      ∃ t r, issue (.writeMemory a v) s = (t, some r) ∧ r.code = .ok ∧ t.read a.toNat = v ∧
        (∀ x, x ≠ a.toNat → t.read x = s.read x) ∧ t = { s with mem := t.mem })

/-- R226, R227, R228: SNAPSHOT changes nothing and returns pc, rb and memory; RESTORE of it, in whatever state the runs
in between left, gives that pc, rb and memory in a fresh Running state. A Snapshot as a value is notes/assumptions/14.md. -/
def Obligations.RestoreReturnsToTheSnapshot : Prop :=
  ∀ s u : State, s.Inv → s.activity = .idle → u.activity = .idle → u.config = s.config →
    ∃ image r, issue .snapshot s = (s, some r) ∧ r.code = .ok ∧ r.value = some (.snapshot image) ∧
      (issue (.restore image) u).1 =
        { u with pc := s.pc, rb := s.rb, mem := s.mem, status := .running, faultCause := .none, faultParam := 0,
                 faultValue := 0, feed := none, out := none }

/-- R227: RESTORE of a host-built Snapshot, in any status: any pc and rb are taken, every address of the array reads as
the Snapshot says, and no fault is raised. That a host-built Snapshot may list cells in any order is the model's choice
(notes/assumptions/14.md). -/
def Obligations.RestoreTakesAHostBuiltSnapshot : Prop :=
  ∀ (s : State) (image : Snapshot), s.activity = .idle →
    ∃ t r, issue (.restore image) s = (t, some r) ∧ r.code = .ok ∧
      (∀ a, a < s.config.memDepth → t.read a = image.mem.read a) ∧ t.mem.wf ∧
      t = { s with mem := t.mem, pc := image.pc, rb := image.rb, status := .running, faultCause := .none,
                   faultParam := 0, faultValue := 0, feed := none, out := none }

/-- R230, R231: FEED, in any status, fills an empty feed register and changes nothing else; a full one is answered
FeedOverrun without change. TAKE_OUTPUT returns the latched value without clearing it, or NoOutput. -/
def Obligations.FeedAndTakeOutput : Prop :=
  ∀ (s : State) (v w : Word), s.activity = .idle →
    (s.feed = none → ∃ r, issue (.feed v) s = ({ s with feed := some v }, some r) ∧ r.code = .ok) ∧
    (s.feed = some w → ∃ r, issue (.feed v) s = (s, some r) ∧ r.code = .feedOverrun) ∧
    (s.out = none → ∃ r, issue .takeOutput s = (s, some r) ∧ r.code = .noOutput) ∧
    (s.out = some w → ∃ r, issue .takeOutput s = (s, some r) ∧ r.code = .ok ∧ r.value = some (.word w))

/-- R119, R31: STEP runs one step, answers OK with the status and the fault record after it, never InputUnderflow, and
returns a value exactly when the instruction was a completed Output: the value emitted. In a terminal status it does
nothing and answers OK with that status and no value. -/
def Obligations.StepCommandRunsOneStep : Prop :=
  ∀ s : State, s.activity = .idle →
    ∃ t r, stepCommand s = (t, some r) ∧ step s = .next t ∧ r.code = .ok ∧ r.status = t.status ∧
      r.faultCause = t.faultCause ∧ r.faultParam = t.faultParam ∧ r.faultValue = t.faultValue ∧
      (s.status.terminal = true → t = s ∧ r.value = none) ∧
      (s.status.terminal = false →
        ∀ v, r.value = some v ↔ ∃ p1 w, fetchInstr s.begin = .ok (.out p1) ∧ readParam s.begin 1 p1 = .ok w ∧
          v = .word w)

/-- R120, R122: a turn of a RUN in progress does one step; it goes on exactly when that leaves status Running; otherwise
the core is idle again and answers, InputUnderflow for an Input without a value under stop_on_input = false and OK
in every other case, with the value of an Output that stopped it. A RUN as turns is the model's form of it
(notes/assumptions/13.md). -/
def Obligations.RunStepsUntilItStops : Prop :=
  ∀ (s : State) (si so : Bool), s.activity = .run si so → s.status.terminal = false →
    ∃ t, step s = .next t ∧
      (t.status = .running → tick s = (t, none)) ∧
      (t.status ≠ .running → ∃ r, tick s = ({ t with activity := .idle }, some r) ∧ r.status = t.status ∧
        (r.code = .inputUnderflow ↔ t.status = .awaitingInput ∧ si = false) ∧
        (r.code = .ok ↔ ¬ (t.status = .awaitingInput ∧ si = false)) ∧
        (∀ v, r.value = some (.word v) ↔ t.status = .producedOutput ∧ t.out = some v))

/-- R121: in a RUN with stop_on_output = false an Output still emits and latches, the run goes on with status Running, and
no turn of it ever enters ProducedOutput. -/
def Obligations.RunWithoutStopOnOutputGoesOn : Prop :=
  ∀ (s : State) (si : Bool), s.activity = .run si false →
    (∀ p1 v, s.status.terminal = false → fetchInstr s.begin = .ok (.out p1) → readParam s.begin 1 p1 = .ok v →
      ∃ t, tick s = (t, none) ∧ t.status = .running ∧ t.activity = .run si false ∧ t.out = some v ∧
        t.sink = s.sink ++ [v]) ∧
    (tick s).1.status ≠ .producedOutput

/-- R220, R120: an accepted STEP or RUN is in progress until its response, a RUN with its flags; while it is, no command is
accepted: none changes the state or is answered. A RUN in a terminal status does no step and answers OK with that
status. That a command issued then is not queued is the model's reading of R220 and U15 (notes/assumptions/13.md). -/
def Obligations.BusyCoreAcceptsNoCommand : Prop :=
  ∀ (s : State) (si so : Bool),
    (s.activity = .idle → issue .step s = ({ s with activity := .step }, none) ∧
      issue (.run si so) s = ({ s with activity := .run si so }, none)) ∧
    (s.activity ≠ .idle → ∀ c, issue c s = (s, none)) ∧
    (s.activity = .run si so → s.status.terminal = true →
      tick s = ({ s with activity := .idle }, some (respond .ok none s)))

/-! ## Reset (spec/70_reset_and_hazards.md) -/

/-- R280: reset, in any state and at any time, gives the reset values, leaves the source and the sink alone, and is what
LOAD of the empty program gives an idle block. It abandons a command in progress, which then sends no response, not with
the reset and not later. Where reset can fall is the model's choice (notes/assumptions/13.md): a STEP or a RUN sends
nothing at its issue and its response at the end of a turn, and reset falls in between. -/
def Obligations.ResetGivesTheResetValues : Prop :=
  ∀ s : State,
    (∀ a, (resetPort s).read a = 0) ∧
    resetPort s = { s with mem := (resetPort s).mem, pc := 0, rb := 0, status := .running, faultCause := .none,
                           faultParam := 0, faultValue := 0, feed := none, out := none, activity := .idle } ∧
    (s.activity = .idle → (issue (.load []) s).1 = resetPort s) ∧
    (s.activity = .idle → ∀ c si so, c = .step ∨ c = .run si so →
      (issue c s).2 = none ∧ resetPort (issue c s).1 = resetPort s) ∧
    applyMove .reset s = resetPort s ∧ moveResponse .reset s = none ∧ tick (resetPort s) = (resetPort s, none)

/-- R282: after reset, before any LOAD or RESTORE, a STEP or a RUN faults InvalidOpcode with param 0 and value 0 at
pc = 0. -/
def Obligations.StepAfterResetFaultsInvalidOpcode : Prop :=
  ∀ s : State, s.config.legal →
    (∃ r, (stepCommand (resetPort s)).2 = some r ∧ r.status = .faulted ∧ r.faultCause = .invalidOpcode ∧
      r.faultParam = 0 ∧ r.faultValue = 0) ∧
    (stepCommand (resetPort s)).1.pc = 0 ∧
    ∀ si so, ∃ t r, tick (issue (.run si so) (resetPort s)).1 = (t, some r) ∧ t.pc = 0 ∧ r.status = .faulted ∧
      r.faultCause = .invalidOpcode ∧ r.faultParam = 0 ∧ r.faultValue = 0

/-- R280: reset inside a step, after its poll or its emission (that it can fall there is the model's inference,
notes/assumptions/13.md), abandons the step, which leaves no trace in the block; no response is sent, with the reset or
later; the source and the sink, which reset does not affect, are as that step left them. -/
def Obligations.ResetInsideAStepLeavesOnlySourceAndSink : Prop :=
  ∀ s : State,
    (s.activity = .idle → applyMove .resetInStep s = resetPort s) ∧
    (s.activity ≠ .idle → applyMove .resetInStep s =
      { resetPort s with source := (stepState s).source, sink := (stepState s).sink }) ∧
    moveResponse .resetInStep s = none ∧ tick (applyMove .resetInStep s) = (applyMove .resetInStep s, none)
end

