-- ==== Sys2Proof/Laws/Arith.lean ====
section
/-! SUPPORT. Where a bit vector holds an integer exactly: Words (spec/00_scope.md R5), the fault value's W+1 bits
(10_state.md R26), and the program counter's advance (R21). -/

namespace Sys2Proof.Machine

theorem Word.toInt_bounds (w : Word) : minWord ≤ w.toInt ∧ w.toInt ≤ maxWord := by
  have h1 := BitVec.le_toInt w
  have h2 := BitVec.toInt_lt (x := w)
  simp only [minWord, maxWord]
  norm_num at h1 h2
  omega

/-- A Word holds every integer of its range. -/
theorem Word.toInt_ofInt (v : Int) (h : minWord ≤ v ∧ v ≤ maxWord) : (BitVec.ofInt 64 v).toInt = v := by
  simp only [minWord, maxWord] at h
  rw [BitVec.toInt_ofInt]
  exact Int.bmod_eq_of_le (by norm_num; omega) (by norm_num; omega)

theorem inWord_iff (v : Int) : inWord v = true ↔ minWord ≤ v ∧ v ≤ maxWord := by simp [inWord]

/-- Words are equal exactly when they are the same integer. -/
theorem Word.toInt_inj (v w : Word) : v.toInt = w.toInt ↔ v = w := BitVec.toInt_inj

/-- Every address the core can offend with fits the fault value (R26). -/
theorem faultValue_exact (v : Int) (h : -18446744073709551616 ≤ v ∧ v < 18446744073709551616) :
    (BitVec.ofInt 65 v).toInt = v := by
  rw [BitVec.toInt_ofInt]
  exact Int.bmod_eq_of_le (by norm_num; omega) (by norm_num; omega)

/-- A Word of value at least 0 is the same natural number. -/
theorem Word.toNat_of_nonneg (w : Word) (h : 0 ≤ w.toInt) : w.toInt = w.toNat := by
  have := BitVec.toInt_eq_toNat_cond w
  have hw := w.isLt
  split_ifs at this <;> omega

/-- Past a valid address the program counter advances without wrapping (R21). -/
theorem pc_advance_exact (pc : Word) (n : Nat) (h0 : 0 ≤ pc.toInt) (h : pc.toInt + n ≤ maxWord) :
    (pc + BitVec.ofNat 64 n).toInt = pc.toInt + n := by
  have hp := Word.toNat_of_nonneg pc h0
  simp only [maxWord] at h
  have e : pc + BitVec.ofNat 64 n = BitVec.ofInt 64 (pc.toInt + n) := by
    apply BitVec.eq_of_toNat_eq
    have e2 : pc.toInt + (n : Int) = ((pc.toNat + n : Nat) : Int) := by rw [hp]; push_cast; rfl
    rw [e2, BitVec.ofInt_natCast]
    simp [BitVec.toNat_add, BitVec.toNat_ofNat]
  rw [e, Word.toInt_ofInt]
  simp only [minWord, maxWord]
  omega

end Sys2Proof.Machine
end

