-- ==== Sys2Proof/Laws/Decode.lean ====
section
/-! SUPPORT. The small laws of the decoder and the encoder (spec/30_encoding.md): each table read both ways. -/

namespace Sys2Proof

theorem modeOfDigit_eq_some (n : Nat) (m : Mode) : modeOfDigit n = some m ↔ n = modeDigit m := by
  unfold modeOfDigit
  split <;> cases m <;> simp_all [modeDigit]

theorem modeOfDigit_eq_none (n : Nat) : modeOfDigit n = none ↔ 2 < n := by
  unfold modeOfDigit
  split <;> simp_all
  omega

theorem modeDigit_lt (m : Mode) : modeDigit m < 3 := by cases m <;> simp [modeDigit]

theorem opCode_lt (op : Op) : 1 ≤ opCode op ∧ opCode op < 100 := by cases op <;> simp [opCode]

theorem opOfCode_eq_some (n : Nat) (op : Op) : opOfCode n = some op ↔ n = opCode op := by
  unfold opOfCode
  split <;> cases op <;> simp_all [opCode]

theorem opOfCode_eq_none (n : Nat) : opOfCode n = none ↔ n ∉ [1, 2, 3, 4, 5, 6, 7, 8, 9, 99] := by
  unfold opOfCode
  split <;> simp_all

theorem decodeMode_ok (w : Word) (k : Nat) (m : Mode) :
    decodeMode w k = .ok m ↔ digit w.toNat (k + 1) = modeDigit m := by
  unfold decodeMode
  rw [← modeOfDigit_eq_some]
  cases modeOfDigit (digit w.toNat (k + 1)) <;> simp

theorem decodeMode_error (w : Word) (k : Nat) (f : FaultInfo) :
    decodeMode w k = .error f ↔ 2 < digit w.toNat (k + 1) ∧ f = ⟨.badModeDigit, k, w.toInt⟩ := by
  unfold decodeMode
  rw [← modeOfDigit_eq_none]
  cases modeOfDigit (digit w.toNat (k + 1)) <;> simp [eq_comm]

theorem checkWriteTargets_ok (w : Word) (d e : Decoded) :
    checkWriteTargets w d = .ok e ↔ e = d ∧ ∀ k ∈ writeTargets d.op, decodedMode d k ≠ .immediate := by
  unfold checkWriteTargets
  cases h : (writeTargets d.op).find? (fun k => decodedMode d k == .immediate) with
  | none =>
    rw [List.find?_eq_none] at h
    simp only [beq_iff_eq] at h
    simp only [Except.ok.injEq]
    exact ⟨fun e => ⟨e.symm, h⟩, fun e => e.1.symm⟩
  | some k =>
    have hm := List.mem_of_find?_eq_some h
    have hi := List.find?_some h
    simp only [beq_iff_eq] at hi
    simp only [reduceCtorEq, false_iff, not_and, not_forall]
    exact fun _ => ⟨k, hm, by simp [hi]⟩

/-- No opcode has two write targets (R88). -/
theorem writeTargets_cases (op : Op) : writeTargets op = [] ∨ writeTargets op = [1] ∨ writeTargets op = [3] := by
  cases op <;> simp [writeTargets]

theorem checkWriteTargets_error (w : Word) (d : Decoded) (f : FaultInfo) :
    checkWriteTargets w d = .error f ↔
      ∃ k ∈ writeTargets d.op, decodedMode d k = .immediate ∧ f = ⟨.immediateWriteTarget, k, w.toInt⟩ := by
  unfold checkWriteTargets
  rcases writeTargets_cases d.op with h | h | h
  · simp [h]
  · by_cases hi : decodedMode d 1 = .immediate <;> simp [h, hi, List.find?]
    exact eq_comm
  · by_cases hi : decodedMode d 3 = .immediate <;> simp [h, hi, List.find?]
    exact eq_comm

/-- The value of a canonical instruction word (R95). -/
theorem encodeWord_toNat (d : Decoded) :
    (encodeWord d).toNat =
      opCode d.op + 100 * modeDigit d.mode1 + 1000 * modeDigit d.mode2 + 10000 * modeDigit d.mode3 := by
  have h0 := opCode_lt d.op
  have h1 := modeDigit_lt d.mode1
  have h2 := modeDigit_lt d.mode2
  have h3 := modeDigit_lt d.mode3
  simp only [encodeWord, BitVec.toNat_ofNat]
  exact Nat.mod_eq_of_lt (by omega)

/-- A canonical instruction word has at most five digits. -/
theorem encodeWord_lt (d : Decoded) : (encodeWord d).toNat < 22300 := by
  have h0 := opCode_lt d.op
  have h1 := modeDigit_lt d.mode1
  have h2 := modeDigit_lt d.mode2
  have h3 := modeDigit_lt d.mode3
  rw [encodeWord_toNat]
  omega

/-- The opcode digits of a canonical instruction word. -/
theorem encodeWord_opcode (d : Decoded) : (encodeWord d).toNat % 100 = opCode d.op := by
  have h0 := opCode_lt d.op
  rw [encodeWord_toNat]
  omega

end Sys2Proof
end

