-- ==== Sys2Proof/Laws/Memory.lean ====
section
/-! SUPPORT. The laws of memory: read after write, the canonical form is kept by every operation, and equal reads of
canonical memories make equal memories. -/

namespace Sys2Proof.Machine

@[simp] theorem Memory.unset_eq : Memory.unset = 0#64 := rfl

@[simp] theorem Memory.read_nil (a : Nat) : Memory.read [] a = 0 := rfl

/-- An address below every listed one reads as unset. -/
theorem Memory.read_of_not_listed (m : Memory) (a : Nat) (h : ∀ c ∈ m, c.1 ≠ a) : m.read a = 0#64 := by
  induction m with
  | nil => rfl
  | cons c rest ih =>
    have hc : a ≠ c.1 := fun e => h c (by simp) e.symm
    simp [Memory.read, hc, ih (fun d hd => h d (by simp [hd]))]

theorem Memory.wf_cons (c : Nat × Word) (rest : Memory) :
    Memory.wf (c :: rest) ↔ (∀ d ∈ rest, c.1 < d.1) ∧ c.2 ≠ 0#64 ∧ Memory.wf rest := by
  simp only [Memory.wf, List.pairwise_cons, List.mem_cons, forall_eq_or_imp]
  tauto

/-- Every listed address of a written memory was listed before or is the one written. -/
theorem Memory.mem_write (m : Memory) (a : Nat) (v : Word) (c : Nat × Word) (h : c ∈ m.write a v) :
    c ∈ m ∨ (c = (a, v) ∧ v ≠ 0#64) := by
  induction m with
  | nil =>
    by_cases hv : v = 0#64 <;> simp_all [Memory.write, Memory.unset]
  | cons d rest ih =>
    obtain ⟨b, u⟩ := d
    by_cases hv : v = 0#64 <;> simp only [Memory.write, Memory.unset, hv, if_true, if_false] at h <;>
      split_ifs at h <;> simp_all <;> tauto

/-- A write keeps the canonical form. -/
theorem Memory.write_wf (m : Memory) (a : Nat) (v : Word) (h : m.wf) : (m.write a v).wf := by
  induction m with
  | nil => by_cases hv : v = 0#64 <;> simp [Memory.write, Memory.unset, Memory.wf, hv]
  | cons c rest ih =>
    obtain ⟨b, u⟩ := c
    obtain ⟨hb, hu, hr⟩ := (Memory.wf_cons _ _).1 h
    by_cases hlt : a < b
    · by_cases hv : v = 0#64
      · simpa [Memory.write, Memory.unset, hlt, hv] using h
      · simp only [Memory.write, Memory.unset, hlt, hv, if_true, if_false]
        refine (Memory.wf_cons _ _).2 ⟨?_, hv, h⟩
        intro d hd
        rcases List.mem_cons.1 hd with rfl | hd
        · exact hlt
        · exact lt_trans hlt (hb d hd)
    · by_cases he : a = b
      · by_cases hv : v = 0#64
        · simpa [Memory.write, Memory.unset, he, hv] using hr
        · simp only [Memory.write, Memory.unset, he, hv, if_true, if_false, lt_irrefl]
          exact (Memory.wf_cons _ _).2 ⟨hb, hv, hr⟩
      · simp only [Memory.write, hlt, he, if_false]
        refine (Memory.wf_cons _ _).2 ⟨?_, hu, ih hr⟩
        intro d hd
        rcases Memory.mem_write rest a v d hd with hd | ⟨rfl, -⟩
        · exact hb d hd
        · change b < a
          omega

/-- A write at an address below `depth` keeps every listed address below it. -/
theorem Memory.write_below (m : Memory) (a depth : Nat) (v : Word) (h : m.below depth) (ha : a < depth) :
    (m.write a v).below depth := by
  intro c hc
  rcases Memory.mem_write m a v c hc with hc | ⟨rfl, -⟩
  · exact h c hc
  · exact ha

/-- A write leaves every other address alone. -/
theorem Memory.read_write_other (m : Memory) (a x : Nat) (v : Word) (h : x ≠ a) : (m.write a v).read x = m.read x := by
  induction m with
  | nil => by_cases hv : v = 0#64 <;> simp [Memory.write, Memory.unset, Memory.read, hv, h]
  | cons c rest ih =>
    obtain ⟨b, u⟩ := c
    by_cases hlt : a < b
    · by_cases hv : v = 0#64 <;> simp [Memory.write, Memory.unset, Memory.read, hlt, hv, h]
    · by_cases he : a = b
      · subst he
        by_cases hv : v = 0#64 <;> simp [Memory.write, Memory.unset, Memory.read, hv, h]
      · simp [Memory.write, Memory.read, hlt, he, ih]

/-- A read after a write to the same address gives the value written. -/
theorem Memory.read_write_same (m : Memory) (a : Nat) (v : Word) (hm : m.wf) : (m.write a v).read a = v := by
  induction m with
  | nil => by_cases hv : v = 0#64 <;> simp [Memory.write, Memory.unset, Memory.read, hv]
  | cons c rest ih =>
    obtain ⟨b, u⟩ := c
    obtain ⟨hb, -, hr⟩ := (Memory.wf_cons _ _).1 hm
    have above : ∀ x, x ≤ b → Memory.read rest x = 0#64 := fun x hx =>
      Memory.read_of_not_listed rest x (fun d hd => by have := hb d hd; change b < d.1 at this; omega)
    by_cases hlt : a < b
    · by_cases hv : v = 0#64
      · have : a ≠ b := by omega
        simp [Memory.write, Memory.unset, Memory.read, hlt, hv, this, above a (by omega)]
      · simp [Memory.write, Memory.unset, Memory.read, hlt, hv]
    · by_cases he : a = b
      · subst he
        by_cases hv : v = 0#64
        · simp [Memory.write, Memory.unset, hv, above a le_rfl]
        · simp [Memory.write, Memory.unset, Memory.read, hv]
      · simp [Memory.write, Memory.read, hlt, he, ih hr]

/-- The image of a program lists addresses from its base up to its end. -/
theorem Memory.image_range (program : List Word) (a : Nat) :
    ∀ c ∈ Memory.image program a, a ≤ c.1 ∧ c.1 < a + program.length := by
  induction program generalizing a with
  | nil => simp [Memory.image]
  | cons v rest ih =>
    intro c hc
    have step : c ∈ Memory.image rest (a + 1) → a ≤ c.1 ∧ c.1 < a + (v :: rest).length := by
      intro h
      have := ih (a + 1) c h
      simp only [List.length_cons]
      omega
    by_cases hv : v = 0#64
    · exact step (by simpa [Memory.image, Memory.unset, hv] using hc)
    · simp only [Memory.image, Memory.unset, hv, if_false, List.mem_cons] at hc
      rcases hc with rfl | hc
      · simp
      · exact step hc

theorem Memory.image_wf (program : List Word) (a : Nat) : (Memory.image program a).wf := by
  induction program generalizing a with
  | nil => simp [Memory.image, Memory.wf]
  | cons v rest ih =>
    by_cases hv : v = 0#64
    · simpa [Memory.image, Memory.unset, hv] using ih (a + 1)
    · simp only [Memory.image, Memory.unset, hv, if_false]
      exact (Memory.wf_cons _ _).2 ⟨fun d hd => (Memory.image_range rest (a + 1) d hd).1, hv, ih (a + 1)⟩

theorem Memory.image_below (program : List Word) (depth : Nat) (h : program.length ≤ depth) :
    (Memory.image program 0).below depth := by
  intro c hc
  have := (Memory.image_range program 0 c hc).2
  omega

/-- The image reads as the program from its base, and 0 elsewhere (R51). -/
theorem Memory.read_image (program : List Word) (a x : Nat) :
    (Memory.image program a).read x = if a ≤ x then program.getD (x - a) 0#64 else 0#64 := by
  induction program generalizing a with
  | nil => simp [Memory.image]
  | cons v rest ih =>
    by_cases hx : x = a
    · subst hx
      have hr : Memory.read (Memory.image rest (x + 1)) x = 0#64 := by rw [ih]; simp
      by_cases hv : v = 0#64 <;> simp [Memory.image, Memory.unset, Memory.read, hv, hr]
    · have hr : (Memory.image (v :: rest) a).read x = (Memory.image rest (a + 1)).read x := by
        by_cases hv : v = 0#64 <;> simp [Memory.image, Memory.unset, Memory.read, hv, hx]
      rw [hr, ih]
      by_cases hle : a ≤ x
      · have h1 : a + 1 ≤ x := by omega
        have h2 : x - a = (x - (a + 1)) + 1 := by omega
        simp [hle, h1, h2]
      · have h1 : ¬ a + 1 ≤ x := by omega
        simp [hle, h1]

theorem Memory.ofCells_wf (depth : Nat) (cells : List (Nat × Word)) : (Memory.ofCells depth cells).wf := by
  induction cells with
  | nil => simp [Memory.ofCells, Memory.wf]
  | cons c rest ih =>
    obtain ⟨a, v⟩ := c
    by_cases h : a < depth
    · simpa [Memory.ofCells, h] using Memory.write_wf _ a v ih
    · simpa [Memory.ofCells, h] using ih

theorem Memory.ofCells_below (depth : Nat) (cells : List (Nat × Word)) : (Memory.ofCells depth cells).below depth := by
  induction cells with
  | nil => simp [Memory.ofCells, Memory.below]
  | cons c rest ih =>
    obtain ⟨a, v⟩ := c
    by_cases h : a < depth
    · simpa [Memory.ofCells, h] using Memory.write_below _ a depth v ih h
    · simpa [Memory.ofCells, h] using ih

/-- Below `depth` the canonical memory reads as the cells do. -/
theorem Memory.read_ofCells (depth : Nat) (cells : List (Nat × Word)) (x : Nat) (hx : x < depth) :
    (Memory.ofCells depth cells).read x = Memory.read cells x := by
  induction cells with
  | nil => rfl
  | cons c rest ih =>
    obtain ⟨a, v⟩ := c
    by_cases h : a < depth
    · by_cases he : x = a
      · subst he
        simp [Memory.ofCells, h, Memory.read, Memory.read_write_same _ _ _ (Memory.ofCells_wf depth rest)]
      · simp [Memory.ofCells, h, Memory.read, he, Memory.read_write_other _ _ _ _ he, ih]
    · have he : x ≠ a := by omega
      simp [Memory.ofCells, h, Memory.read, he, ih]

end Sys2Proof.Machine
end

