-- ==== Sys2Proof/Laws/State.lean ====
section
/-! SUPPORT. What each update of the state does to each field: one lemma per field per update. -/

namespace Sys2Proof.Machine

/-! ## State.write -/

@[simp] theorem State.write_pc (s : State) (a : Nat) (v : Word) : (s.write a v).pc = s.pc := rfl
@[simp] theorem State.write_rb (s : State) (a : Nat) (v : Word) : (s.write a v).rb = s.rb := rfl
@[simp] theorem State.write_mem (s : State) (a : Nat) (v : Word) : (s.write a v).mem = s.mem.write a v := rfl
@[simp] theorem State.write_status (s : State) (a : Nat) (v : Word) : (s.write a v).status = s.status := rfl
@[simp] theorem State.write_faultCause (s : State) (a : Nat) (v : Word) : (s.write a v).faultCause = s.faultCause := rfl
@[simp] theorem State.write_faultParam (s : State) (a : Nat) (v : Word) : (s.write a v).faultParam = s.faultParam := rfl
@[simp] theorem State.write_faultValue (s : State) (a : Nat) (v : Word) : (s.write a v).faultValue = s.faultValue := rfl
@[simp] theorem State.write_feed (s : State) (a : Nat) (v : Word) : (s.write a v).feed = s.feed := rfl
@[simp] theorem State.write_out (s : State) (a : Nat) (v : Word) : (s.write a v).out = s.out := rfl
@[simp] theorem State.write_config (s : State) (a : Nat) (v : Word) : (s.write a v).config = s.config := rfl
@[simp] theorem State.write_source (s : State) (a : Nat) (v : Word) : (s.write a v).source = s.source := rfl
@[simp] theorem State.write_sink (s : State) (a : Nat) (v : Word) : (s.write a v).sink = s.sink := rfl
@[simp] theorem State.write_activity (s : State) (a : Nat) (v : Word) : (s.write a v).activity = s.activity := rfl

/-! ## State.advance -/

@[simp] theorem State.advance_pc (s : State) (n : Nat) : (s.advance n).pc = s.pc + BitVec.ofNat 64 n := rfl
@[simp] theorem State.advance_rb (s : State) (n : Nat) : (s.advance n).rb = s.rb := rfl
@[simp] theorem State.advance_mem (s : State) (n : Nat) : (s.advance n).mem = s.mem := rfl
@[simp] theorem State.advance_status (s : State) (n : Nat) : (s.advance n).status = s.status := rfl
@[simp] theorem State.advance_faultCause (s : State) (n : Nat) : (s.advance n).faultCause = s.faultCause := rfl
@[simp] theorem State.advance_faultParam (s : State) (n : Nat) : (s.advance n).faultParam = s.faultParam := rfl
@[simp] theorem State.advance_faultValue (s : State) (n : Nat) : (s.advance n).faultValue = s.faultValue := rfl
@[simp] theorem State.advance_feed (s : State) (n : Nat) : (s.advance n).feed = s.feed := rfl
@[simp] theorem State.advance_out (s : State) (n : Nat) : (s.advance n).out = s.out := rfl
@[simp] theorem State.advance_config (s : State) (n : Nat) : (s.advance n).config = s.config := rfl
@[simp] theorem State.advance_source (s : State) (n : Nat) : (s.advance n).source = s.source := rfl
@[simp] theorem State.advance_sink (s : State) (n : Nat) : (s.advance n).sink = s.sink := rfl
@[simp] theorem State.advance_activity (s : State) (n : Nat) : (s.advance n).activity = s.activity := rfl

/-! ## State.jumpTo -/

@[simp] theorem State.jumpTo_pc (s : State) (t : Word) : (s.jumpTo t).pc = t := rfl
@[simp] theorem State.jumpTo_rb (s : State) (t : Word) : (s.jumpTo t).rb = s.rb := rfl
@[simp] theorem State.jumpTo_mem (s : State) (t : Word) : (s.jumpTo t).mem = s.mem := rfl
@[simp] theorem State.jumpTo_status (s : State) (t : Word) : (s.jumpTo t).status = s.status := rfl
@[simp] theorem State.jumpTo_faultCause (s : State) (t : Word) : (s.jumpTo t).faultCause = s.faultCause := rfl
@[simp] theorem State.jumpTo_faultParam (s : State) (t : Word) : (s.jumpTo t).faultParam = s.faultParam := rfl
@[simp] theorem State.jumpTo_faultValue (s : State) (t : Word) : (s.jumpTo t).faultValue = s.faultValue := rfl
@[simp] theorem State.jumpTo_feed (s : State) (t : Word) : (s.jumpTo t).feed = s.feed := rfl
@[simp] theorem State.jumpTo_out (s : State) (t : Word) : (s.jumpTo t).out = s.out := rfl
@[simp] theorem State.jumpTo_config (s : State) (t : Word) : (s.jumpTo t).config = s.config := rfl
@[simp] theorem State.jumpTo_source (s : State) (t : Word) : (s.jumpTo t).source = s.source := rfl
@[simp] theorem State.jumpTo_sink (s : State) (t : Word) : (s.jumpTo t).sink = s.sink := rfl
@[simp] theorem State.jumpTo_activity (s : State) (t : Word) : (s.jumpTo t).activity = s.activity := rfl

/-! ## State.begin -/

@[simp] theorem State.begin_pc (s : State) : s.begin.pc = s.pc := rfl
@[simp] theorem State.begin_rb (s : State) : s.begin.rb = s.rb := rfl
@[simp] theorem State.begin_mem (s : State) : s.begin.mem = s.mem := rfl
@[simp] theorem State.begin_status (s : State) : s.begin.status = .running := rfl
@[simp] theorem State.begin_faultCause (s : State) : s.begin.faultCause = s.faultCause := rfl
@[simp] theorem State.begin_faultParam (s : State) : s.begin.faultParam = s.faultParam := rfl
@[simp] theorem State.begin_faultValue (s : State) : s.begin.faultValue = s.faultValue := rfl
@[simp] theorem State.begin_feed (s : State) : s.begin.feed = s.feed := rfl
@[simp] theorem State.begin_out (s : State) : s.begin.out = s.out := rfl
@[simp] theorem State.begin_config (s : State) : s.begin.config = s.config := rfl
@[simp] theorem State.begin_source (s : State) : s.begin.source = s.source := rfl
@[simp] theorem State.begin_sink (s : State) : s.begin.sink = s.sink := rfl
@[simp] theorem State.begin_activity (s : State) : s.begin.activity = s.activity := rfl

/-! ## raiseFault -/

@[simp] theorem raiseFault_pc (f : FaultInfo) (s : State) : (raiseFault f s).pc = s.pc := rfl
@[simp] theorem raiseFault_rb (f : FaultInfo) (s : State) : (raiseFault f s).rb = s.rb := rfl
@[simp] theorem raiseFault_mem (f : FaultInfo) (s : State) : (raiseFault f s).mem = s.mem := rfl
@[simp] theorem raiseFault_status (f : FaultInfo) (s : State) : (raiseFault f s).status = .faulted := rfl
@[simp] theorem raiseFault_faultCause (f : FaultInfo) (s : State) : (raiseFault f s).faultCause = f.cause := rfl
@[simp] theorem raiseFault_faultParam (f : FaultInfo) (s : State) : (raiseFault f s).faultParam = BitVec.ofNat 2 f.param := rfl
@[simp] theorem raiseFault_faultValue (f : FaultInfo) (s : State) : (raiseFault f s).faultValue = BitVec.ofInt 65 f.value := rfl
@[simp] theorem raiseFault_feed (f : FaultInfo) (s : State) : (raiseFault f s).feed = s.feed := rfl
@[simp] theorem raiseFault_out (f : FaultInfo) (s : State) : (raiseFault f s).out = s.out := rfl
@[simp] theorem raiseFault_config (f : FaultInfo) (s : State) : (raiseFault f s).config = s.config := rfl
@[simp] theorem raiseFault_source (f : FaultInfo) (s : State) : (raiseFault f s).source = s.source := rfl
@[simp] theorem raiseFault_sink (f : FaultInfo) (s : State) : (raiseFault f s).sink = s.sink := rfl
@[simp] theorem raiseFault_activity (f : FaultInfo) (s : State) : (raiseFault f s).activity = s.activity := rfl

/-! ## emit -/

@[simp] theorem emit_pc (v : Word) (s : State) : (emit v s).pc = s.pc := rfl
@[simp] theorem emit_rb (v : Word) (s : State) : (emit v s).rb = s.rb := rfl
@[simp] theorem emit_mem (v : Word) (s : State) : (emit v s).mem = s.mem := rfl
@[simp] theorem emit_status (v : Word) (s : State) : (emit v s).status = s.status := rfl
@[simp] theorem emit_faultCause (v : Word) (s : State) : (emit v s).faultCause = s.faultCause := rfl
@[simp] theorem emit_faultParam (v : Word) (s : State) : (emit v s).faultParam = s.faultParam := rfl
@[simp] theorem emit_faultValue (v : Word) (s : State) : (emit v s).faultValue = s.faultValue := rfl
@[simp] theorem emit_feed (v : Word) (s : State) : (emit v s).feed = s.feed := rfl
@[simp] theorem emit_out (v : Word) (s : State) : (emit v s).out = some v := rfl
@[simp] theorem emit_config (v : Word) (s : State) : (emit v s).config = s.config := rfl
@[simp] theorem emit_source (v : Word) (s : State) : (emit v s).source = s.source := rfl
@[simp] theorem emit_sink (v : Word) (s : State) : (emit v s).sink = s.sink ++ [v] := rfl
@[simp] theorem emit_activity (v : Word) (s : State) : (emit v s).activity = s.activity := rfl

/-! ## freshState -/

@[simp] theorem freshState_pc (m : Memory) (pc rb : Word) (s : State) : (freshState m pc rb s).pc = pc := rfl
@[simp] theorem freshState_rb (m : Memory) (pc rb : Word) (s : State) : (freshState m pc rb s).rb = rb := rfl
@[simp] theorem freshState_mem (m : Memory) (pc rb : Word) (s : State) : (freshState m pc rb s).mem = m := rfl
@[simp] theorem freshState_status (m : Memory) (pc rb : Word) (s : State) : (freshState m pc rb s).status = .running := rfl
@[simp] theorem freshState_faultCause (m : Memory) (pc rb : Word) (s : State) : (freshState m pc rb s).faultCause = .none := rfl
@[simp] theorem freshState_faultParam (m : Memory) (pc rb : Word) (s : State) : (freshState m pc rb s).faultParam = 0 := rfl
@[simp] theorem freshState_faultValue (m : Memory) (pc rb : Word) (s : State) : (freshState m pc rb s).faultValue = 0 := rfl
@[simp] theorem freshState_feed (m : Memory) (pc rb : Word) (s : State) : (freshState m pc rb s).feed = none := rfl
@[simp] theorem freshState_out (m : Memory) (pc rb : Word) (s : State) : (freshState m pc rb s).out = none := rfl
@[simp] theorem freshState_config (m : Memory) (pc rb : Word) (s : State) : (freshState m pc rb s).config = s.config := rfl
@[simp] theorem freshState_source (m : Memory) (pc rb : Word) (s : State) : (freshState m pc rb s).source = s.source := rfl
@[simp] theorem freshState_sink (m : Memory) (pc rb : Word) (s : State) : (freshState m pc rb s).sink = s.sink := rfl
@[simp] theorem freshState_activity (m : Memory) (pc rb : Word) (s : State) : (freshState m pc rb s).activity = s.activity := rfl

/-! ## resetPort -/

@[simp] theorem resetPort_pc (s : State) : (resetPort s).pc = 0 := rfl
@[simp] theorem resetPort_rb (s : State) : (resetPort s).rb = 0 := rfl
@[simp] theorem resetPort_mem (s : State) : (resetPort s).mem = [] := rfl
@[simp] theorem resetPort_status (s : State) : (resetPort s).status = .running := rfl
@[simp] theorem resetPort_faultCause (s : State) : (resetPort s).faultCause = .none := rfl
@[simp] theorem resetPort_faultParam (s : State) : (resetPort s).faultParam = 0 := rfl
@[simp] theorem resetPort_faultValue (s : State) : (resetPort s).faultValue = 0 := rfl
@[simp] theorem resetPort_feed (s : State) : (resetPort s).feed = none := rfl
@[simp] theorem resetPort_out (s : State) : (resetPort s).out = none := rfl
@[simp] theorem resetPort_config (s : State) : (resetPort s).config = s.config := rfl
@[simp] theorem resetPort_source (s : State) : (resetPort s).source = s.source := rfl
@[simp] theorem resetPort_sink (s : State) : (resetPort s).sink = s.sink := rfl
@[simp] theorem resetPort_activity (s : State) : (resetPort s).activity = .idle := rfl

/-! ## startCommand and finishCommand -/

@[simp] theorem startCommand_pc (a : Activity) (s : State) : (startCommand a s).1.pc = s.pc := rfl
@[simp] theorem startCommand_rb (a : Activity) (s : State) : (startCommand a s).1.rb = s.rb := rfl
@[simp] theorem startCommand_mem (a : Activity) (s : State) : (startCommand a s).1.mem = s.mem := rfl
@[simp] theorem startCommand_status (a : Activity) (s : State) : (startCommand a s).1.status = s.status := rfl
@[simp] theorem startCommand_faultCause (a : Activity) (s : State) : (startCommand a s).1.faultCause = s.faultCause := rfl
@[simp] theorem startCommand_faultParam (a : Activity) (s : State) : (startCommand a s).1.faultParam = s.faultParam := rfl
@[simp] theorem startCommand_faultValue (a : Activity) (s : State) : (startCommand a s).1.faultValue = s.faultValue := rfl
@[simp] theorem startCommand_feed (a : Activity) (s : State) : (startCommand a s).1.feed = s.feed := rfl
@[simp] theorem startCommand_out (a : Activity) (s : State) : (startCommand a s).1.out = s.out := rfl
@[simp] theorem startCommand_config (a : Activity) (s : State) : (startCommand a s).1.config = s.config := rfl
@[simp] theorem startCommand_source (a : Activity) (s : State) : (startCommand a s).1.source = s.source := rfl
@[simp] theorem startCommand_sink (a : Activity) (s : State) : (startCommand a s).1.sink = s.sink := rfl
@[simp] theorem startCommand_activity (a : Activity) (s : State) : (startCommand a s).1.activity = a := rfl
@[simp] theorem startCommand_response (a : Activity) (s : State) : (startCommand a s).2 = none := rfl
@[simp] theorem finishCommand_pc (c : RespCode) (s : State) : (finishCommand c s).1.pc = s.pc := rfl
@[simp] theorem finishCommand_rb (c : RespCode) (s : State) : (finishCommand c s).1.rb = s.rb := rfl
@[simp] theorem finishCommand_mem (c : RespCode) (s : State) : (finishCommand c s).1.mem = s.mem := rfl
@[simp] theorem finishCommand_status (c : RespCode) (s : State) : (finishCommand c s).1.status = s.status := rfl
@[simp] theorem finishCommand_faultCause (c : RespCode) (s : State) : (finishCommand c s).1.faultCause = s.faultCause := rfl
@[simp] theorem finishCommand_faultParam (c : RespCode) (s : State) : (finishCommand c s).1.faultParam = s.faultParam := rfl
@[simp] theorem finishCommand_faultValue (c : RespCode) (s : State) : (finishCommand c s).1.faultValue = s.faultValue := rfl
@[simp] theorem finishCommand_feed (c : RespCode) (s : State) : (finishCommand c s).1.feed = s.feed := rfl
@[simp] theorem finishCommand_out (c : RespCode) (s : State) : (finishCommand c s).1.out = s.out := rfl
@[simp] theorem finishCommand_config (c : RespCode) (s : State) : (finishCommand c s).1.config = s.config := rfl
@[simp] theorem finishCommand_source (c : RespCode) (s : State) : (finishCommand c s).1.source = s.source := rfl
@[simp] theorem finishCommand_sink (c : RespCode) (s : State) : (finishCommand c s).1.sink = s.sink := rfl
@[simp] theorem finishCommand_activity (c : RespCode) (s : State) : (finishCommand c s).1.activity = .idle := rfl
@[simp] theorem finishCommand_response (c : RespCode) (s : State) :
    (finishCommand c s).2 = some (respond c (outputValue s) s) := rfl

/-! ## Reading after an update that leaves memory alone -/

@[simp] theorem State.read_advance (s : State) (n a : Nat) : (s.advance n).read a = s.read a := rfl
@[simp] theorem State.read_jumpTo (s : State) (t : Word) (a : Nat) : (s.jumpTo t).read a = s.read a := rfl
@[simp] theorem State.read_begin (s : State) (a : Nat) : s.begin.read a = s.read a := rfl
@[simp] theorem State.read_raiseFault (f : FaultInfo) (s : State) (a : Nat) : (raiseFault f s).read a = s.read a := rfl
@[simp] theorem State.read_emit (v : Word) (s : State) (a : Nat) : (emit v s).read a = s.read a := rfl

/-- A state whose status is Running already is where step 1 of R117 takes it. -/
theorem State.begin_of_running (s : State) (h : s.status = .running) : s.begin = s := by
  cases s; cases h; rfl

/-! ## Status -/

@[simp] theorem Status.terminal_running : Status.terminal .running = false := rfl
@[simp] theorem Status.terminal_halted : Status.terminal .halted = true := rfl
@[simp] theorem Status.terminal_awaitingInput : Status.terminal .awaitingInput = false := rfl
@[simp] theorem Status.terminal_producedOutput : Status.terminal .producedOutput = false := rfl
@[simp] theorem Status.terminal_faulted : Status.terminal .faulted = true := rfl

end Sys2Proof.Machine
end

