-- ==== Sys2Proof/Laws/Ops.lean ====
section
/-! SUPPORT. One lemma per shared operation and per meaning: everything it can answer. Later proofs cite these and
unfold nothing. -/

namespace Sys2Proof.Machine

/-! ## The address check and operand resolution -/

/-- R112. -/
theorem checkAddr_ok (c : Config) (a : Int) (k n : Nat) :
    checkAddr c a k = .ok n ↔ 0 ≤ a ∧ a < c.memDepth ∧ n = a.toNat := by
  unfold checkAddr
  split_ifs with h1 h2
  · simp; omega
  · simp; omega
  · simp only [Except.ok.injEq]
    constructor
    · rintro rfl; exact ⟨by omega, by omega, rfl⟩
    · rintro ⟨_, _, rfl⟩; rfl

/-- R112. -/
theorem checkAddr_error (c : Config) (a : Int) (k : Nat) (f : FaultInfo) :
    checkAddr c a k = .error f ↔
      (a < 0 ∧ f = ⟨.negativeAddress, k, a⟩) ∨ (0 ≤ a ∧ c.memDepth ≤ a ∧ f = ⟨.addressOutOfRange, k, a⟩) := by
  unfold checkAddr
  split_ifs with h1 h2
  · simp only [Except.error.injEq]
    constructor
    · rintro rfl; exact .inl ⟨h1, rfl⟩
    · rintro (⟨_, rfl⟩ | ⟨h, _⟩)
      · rfl
      · omega
  · simp only [Except.error.injEq]
    constructor
    · rintro rfl; exact .inr ⟨by omega, h2, rfl⟩
    · rintro (⟨h, _⟩ | ⟨_, _, rfl⟩)
      · omega
      · rfl
  · simp; omega

theorem resolve_ok (s : State) (k : Nat) (p : Param) (a : Nat) :
    resolve s k p = .ok a ↔ 0 ≤ paramAddr s k p ∧ paramAddr s k p < s.config.memDepth ∧ a = (paramAddr s k p).toNat :=
  checkAddr_ok _ _ _ _

theorem resolve_error (s : State) (k : Nat) (p : Param) (f : FaultInfo) :
    resolve s k p = .error f ↔
      (paramAddr s k p < 0 ∧ f = ⟨.negativeAddress, k, paramAddr s k p⟩) ∨
      (0 ≤ paramAddr s k p ∧ s.config.memDepth ≤ paramAddr s k p ∧ f = ⟨.addressOutOfRange, k, paramAddr s k p⟩) :=
  checkAddr_error _ _ _ _

/-- A resolved address is an address of the array. -/
theorem resolve_lt (s : State) (k : Nat) (p : Param) (a : Nat) (h : resolve s k p = .ok a) : a < s.config.memDepth := by
  obtain ⟨h0, h1, rfl⟩ := (resolve_ok _ _ _ _).1 h
  omega

theorem readParam_ok (s : State) (k : Nat) (p : Param) (v : Word) :
    readParam s k p = .ok v ↔ ∃ a, resolve s k p = .ok a ∧ s.read a = v := by
  unfold readParam
  cases h : resolve s k p <;> simp [bind, Except.bind]

theorem readParam_error (s : State) (k : Nat) (p : Param) (f : FaultInfo) :
    readParam s k p = .error f ↔ resolve s k p = .error f := by
  unfold readParam
  cases h : resolve s k p <;> simp [bind, Except.bind]

/-! ## Results -/

theorem checkResult_ok (s : State) (k : Nat) (r : Int) (v : Word) :
    checkResult s k r = .ok v ↔ (minWord ≤ r ∧ r ≤ maxWord) ∧ v = BitVec.ofInt 64 r := by
  unfold checkResult
  split_ifs with h
  · simp only [Except.ok.injEq]
    exact ⟨fun e => ⟨(inWord_iff r).1 h, e.symm⟩, fun e => e.2.symm⟩
  · simp only [false_iff]
    exact fun e => h ((inWord_iff r).2 e.1)

theorem checkResult_error (s : State) (k : Nat) (r : Int) (f : FaultInfo) :
    checkResult s k r = .error f ↔
      ¬ (minWord ≤ r ∧ r ≤ maxWord) ∧ f = ⟨.arithmeticOverflow, k, s.instrWord.toInt⟩ := by
  unfold checkResult
  split_ifs with h
  · simp only [false_iff]
    exact fun e => e.1 ((inWord_iff r).1 h)
  · simp only [Except.error.injEq]
    exact ⟨fun e => ⟨fun e' => h ((inWord_iff r).2 e'), e.symm⟩, fun e => e.2.symm⟩

/-- LessThan and Equals never overflow (R143, R144). -/
theorem aluExact_compare (op : AluOp) (a b : Int) (h : op = .lessThan ∨ op = .equals) :
    aluExact op a b = 0 ∨ aluExact op a b = 1 := by
  rcases h with rfl | rfl <;> simp only [aluExact] <;> split_ifs <;> simp

/-! ## settle -/

/-- An instruction that settles always answers a next state: the one its rule made, or fault entry. -/
theorem settle_next (s t : State) (r : Except FaultInfo State) :
    settle s r = .next t ↔ r = .ok t ∨ ∃ f, r = .error f ∧ t = raiseFault f s := by
  cases r <;> simp [settle, eq_comm]

theorem settle_answers (s : State) (r : Except FaultInfo State) : ∃ t, settle s r = .next t := by
  cases r <;> simp [settle]

/-! ## The rules of the instructions -/

theorem aluInstr_ok (op : AluOp) (p1 p2 p3 : Param) (s t : State) :
    aluInstr op p1 p2 p3 s = .ok t ↔
      ∃ a b d, readParam s 1 p1 = .ok a ∧ readParam s 2 p2 = .ok b ∧ resolve s 3 p3 = .ok d ∧
        (minWord ≤ aluExact op a.toInt b.toInt ∧ aluExact op a.toInt b.toInt ≤ maxWord) ∧
        t = (s.write d (BitVec.ofInt 64 (aluExact op a.toInt b.toInt))).advance 4 := by
  unfold aluInstr
  rcases h1 : readParam s 1 p1 with _ | a <;> rcases h2 : readParam s 2 p2 with _ | b <;>
    rcases h3 : resolve s 3 p3 with _ | d <;> simp [bind, Except.bind]
  rcases h4 : checkResult s 3 (aluExact op a.toInt b.toInt) with f | r
  · have := (checkResult_error _ _ _ _).1 h4
    simp only [reduceCtorEq, false_iff]
    rintro ⟨h, _⟩
    exact this.1 h
  · obtain ⟨hw, rfl⟩ := (checkResult_ok _ _ _ _).1 h4
    simp only [Except.ok.injEq]
    exact ⟨fun e => ⟨hw, e.symm⟩, fun e => e.2.symm⟩

theorem aluInstr_error (op : AluOp) (p1 p2 p3 : Param) (s : State) (f : FaultInfo) :
    aluInstr op p1 p2 p3 s = .error f ↔
      resolve s 1 p1 = .error f ∨
      ∃ a, readParam s 1 p1 = .ok a ∧ (resolve s 2 p2 = .error f ∨
        ∃ b, readParam s 2 p2 = .ok b ∧ (resolve s 3 p3 = .error f ∨
          ∃ d, resolve s 3 p3 = .ok d ∧ checkResult s 3 (aluExact op a.toInt b.toInt) = .error f)) := by
  unfold aluInstr
  rw [← readParam_error, ← readParam_error]
  rcases h1 : readParam s 1 p1 with _ | a <;> rcases h2 : readParam s 2 p2 with _ | b <;>
    rcases h3 : resolve s 3 p3 with _ | d <;> simp [bind, Except.bind]
  rcases h4 : checkResult s 3 (aluExact op a.toInt b.toInt) with f | r <;> simp

theorem jumpInstr_ok (taken : Word → Bool) (p1 p2 : Param) (s t : State) :
    jumpInstr taken p1 p2 s = .ok t ↔
      ∃ a v, readParam s 1 p1 = .ok a ∧ readParam s 2 p2 = .ok v ∧
        t = if taken a then s.jumpTo v else s.advance 3 := by
  unfold jumpInstr
  rcases h1 : readParam s 1 p1 with _ | a <;> rcases h2 : readParam s 2 p2 with _ | v <;>
    simp [bind, Except.bind]
  exact eq_comm

theorem jumpInstr_error (taken : Word → Bool) (p1 p2 : Param) (s : State) (f : FaultInfo) :
    jumpInstr taken p1 p2 s = .error f ↔
      resolve s 1 p1 = .error f ∨ ∃ a, readParam s 1 p1 = .ok a ∧ resolve s 2 p2 = .error f := by
  unfold jumpInstr
  rw [← readParam_error, ← readParam_error]
  rcases h1 : readParam s 1 p1 with _ | a <;> rcases h2 : readParam s 2 p2 with _ | v <;> simp [bind, Except.bind]

/-- What a poll leaves: the value of the feed register, the feed register then empty; or the source's answer. -/
theorem pollInput_cases (s : State) :
    (∃ v, s.feed = some v ∧ pollInput s = (some v, { s with feed := none })) ∨
    (s.feed = none ∧ pollInput s = (s.source.poll.1, { s with source := s.source.poll.2 })) := by
  unfold pollInput
  cases h : s.feed <;> simp

/-- A poll leaves everything but the feed register and the source. -/
theorem pollInput_frame (s : State) :
    (pollInput s).2 = { s with feed := (pollInput s).2.feed, source := (pollInput s).2.source } := by
  rcases pollInput_cases s with ⟨v, -, h⟩ | ⟨-, h⟩ <;> rw [h]

/-- R160: fault on the address, store, or suspension. -/
theorem execInp_next (p1 : Param) (s t : State) :
    execInp p1 s = .next t ↔
      (∃ f, resolve s 1 p1 = .error f ∧ t = raiseFault f s) ∨
      (∃ d v, resolve s 1 p1 = .ok d ∧ (pollInput s).1 = some v ∧ t = ((pollInput s).2.write d v).advance 2) ∨
      (∃ d, resolve s 1 p1 = .ok d ∧ (pollInput s).1 = none ∧ t = { (pollInput s).2 with status := .awaitingInput }) := by
  unfold execInp
  rcases h1 : resolve s 1 p1 with f | d
  · simp [bind, Except.bind, settle, eq_comm]
  · rcases h2 : pollInput s with ⟨_ | v, s'⟩ <;> simp [bind, Except.bind, settle] <;> exact eq_comm

/-- R170: fault on the operand, or latch, emit, advance. -/
theorem execOut_next (p1 : Param) (s t : State) :
    execOut p1 s = .next t ↔
      (∃ f, resolve s 1 p1 = .error f ∧ t = raiseFault f s) ∨
      (∃ v, readParam s 1 p1 = .ok v ∧
        t = if s.stopOnOutput then { (emit v s).advance 2 with status := .producedOutput } else (emit v s).advance 2) := by
  unfold execOut
  simp only [← readParam_error]
  rcases h1 : readParam s 1 p1 with f | v <;> simp [bind, Except.bind, settle] <;> exact eq_comm

/-- R210: fault on the operand, overflow, or the adjustment. -/
theorem execArb_next (p1 : Param) (s t : State) :
    execArb p1 s = .next t ↔
      (∃ f, resolve s 1 p1 = .error f ∧ t = raiseFault f s) ∨
      (∃ v, readParam s 1 p1 = .ok v ∧
        ((∃ f, checkResult s 1 (s.rb.toInt + v.toInt) = .error f ∧ t = raiseFault f s) ∨
         (∃ r, checkResult s 1 (s.rb.toInt + v.toInt) = .ok r ∧ t = State.advance { s with rb := r } 2))) := by
  unfold execArb
  simp only [← readParam_error]
  rcases h1 : readParam s 1 p1 with f | v
  · simp [bind, Except.bind, settle, eq_comm]
  · rcases h2 : checkResult s 1 (s.rb.toInt + v.toInt) with f | r <;> simp [bind, Except.bind, settle, h2, eq_comm]

/-- Every instruction answers a next state from every state. -/
theorem exec_answers (i : Instr) (s : State) : ∃ t, exec i s = .next t := by
  cases i
  all_goals first
    | exact settle_answers _ _
    | exact ⟨_, rfl⟩

/-! ## Fetch and step -/

theorem checkOperandWords_ok (c : Config) (ip : Int) (k n : Nat) (h0 : 0 ≤ ip) :
    checkOperandWords c ip k n = .ok () ↔ (n = 0 ∨ ip + k + n ≤ c.memDepth) := by
  induction n generalizing k with
  | zero => simp [checkOperandWords]
  | succ n ih =>
    unfold checkOperandWords
    rcases h : checkAddr c (ip + k) k with f | a
    · rcases (checkAddr_error _ _ _ _).1 h with ⟨h1, -⟩ | ⟨-, h1, -⟩ <;> simp [bind, Except.bind] <;> omega
    · obtain ⟨_, h1, -⟩ := (checkAddr_ok _ _ _ _).1 h
      simp only [bind, Except.bind]
      rw [ih (k + 1)]
      constructor
      · intro h'
        right
        push_cast at h' ⊢
        omega
      · rintro (h' | h')
        · omega
        · push_cast at h' ⊢
          omega

/-- The first operand word outside the array is the one at MEM_DEPTH (R117 step 4, R252). -/
theorem checkOperandWords_error (c : Config) (ip : Int) (k n : Nat) (f : FaultInfo) (h0 : 0 ≤ ip)
    (h : checkOperandWords c ip k n = .error f) :
    ∃ j, k ≤ j ∧ j < k + n ∧ c.memDepth ≤ ip + j ∧ f = ⟨.addressOutOfRange, j, ip + j⟩ ∧
      ∀ m, k ≤ m → m < j → ip + m < c.memDepth := by
  induction n generalizing k with
  | zero => simp [checkOperandWords] at h
  | succ n ih =>
    unfold checkOperandWords at h
    rcases h1 : checkAddr c (ip + k) k with g | a
    · rw [h1] at h
      simp only [bind, Except.bind, Except.error.injEq] at h
      subst h
      rcases (checkAddr_error _ _ _ _).1 h1 with ⟨h2, -⟩ | ⟨-, h2, rfl⟩
      · omega
      · exact ⟨k, le_rfl, by omega, h2, rfl, fun m _ _ => by omega⟩
    · rw [h1] at h
      obtain ⟨_, h3, -⟩ := (checkAddr_ok _ _ _ _).1 h1
      obtain ⟨j, hj1, hj2, hj3, hj4, hj5⟩ := ih (k + 1) h
      refine ⟨j, by omega, by omega, hj3, hj4, fun m hm1 hm2 => ?_⟩
      rcases Nat.eq_or_lt_of_le hm1 with rfl | hlt
      · exact h3
      · exact hj5 m hlt hm2

theorem opLen_pos (op : Op) : 1 ≤ opLen op ∧ opLen op ≤ 4 := by cases op <;> simp [opLen]

/-- Steps 2 to 4 of R117 succeed exactly when the whole instruction lies in the array and its word is legal. -/
theorem fetchInstr_ok (s : State) (i : Instr) :
    fetchInstr s = .ok i ↔
      0 ≤ s.pc.toInt ∧ ∃ d, decodeWord s.config.highDigits s.instrWord = .ok d ∧
        s.pc.toInt + opLen d.op ≤ s.config.memDepth ∧ i = buildInstr d (fun k => s.read (s.pc.toInt.toNat + k)) := by
  unfold fetchInstr
  rcases h1 : checkAddr s.config s.pc.toInt 0 with f | ip
  · simp only [bind, Except.bind, reduceCtorEq, false_iff]
    rintro ⟨h0, d, -, h2, -⟩
    have := (opLen_pos d.op).1
    rcases (checkAddr_error _ _ _ _).1 h1 with ⟨h, -⟩ | ⟨-, h, -⟩ <;> omega
  · obtain ⟨h0, hlt, rfl⟩ := (checkAddr_ok _ _ _ _).1 h1
    have hw : s.read s.pc.toInt.toNat = s.instrWord := rfl
    simp only [bind, Except.bind, hw, h0, true_and]
    rcases h2 : decodeWord s.config.highDigits s.instrWord with f | d
    · simp
    · simp only [Except.ok.injEq, exists_eq_left']
      have hl := opLen_pos d.op
      have hc := checkOperandWords_ok s.config s.pc.toInt 1 (opLen d.op - 1) h0
      rcases h3 : checkOperandWords s.config s.pc.toInt 1 (opLen d.op - 1) with f | u
      · rw [h3] at hc
        simp only [reduceCtorEq, false_iff] at hc ⊢
        rintro ⟨h, -⟩
        apply hc
        right
        omega
      · have := hc.1 h3
        simp only [Except.ok.injEq]
        constructor
        · rintro rfl
          exact ⟨by omega, rfl⟩
        · exact fun e => e.2.symm

/-- The faults of steps 2 to 4 of R117, in their order. -/
theorem fetchInstr_error (s : State) (f : FaultInfo) (h : fetchInstr s = .error f) :
    (s.pc.toInt < 0 ∧ f = ⟨.negativeAddress, 0, s.pc.toInt⟩) ∨
    (0 ≤ s.pc.toInt ∧ s.config.memDepth ≤ s.pc.toInt ∧ f = ⟨.addressOutOfRange, 0, s.pc.toInt⟩) ∨
    (0 ≤ s.pc.toInt ∧ s.pc.toInt < s.config.memDepth ∧ decodeWord s.config.highDigits s.instrWord = .error f) ∨
    (0 ≤ s.pc.toInt ∧ s.pc.toInt < s.config.memDepth ∧ ∃ d, decodeWord s.config.highDigits s.instrWord = .ok d ∧
      ∃ j : Nat, 1 ≤ j ∧ j < opLen d.op ∧ s.pc.toInt + j = s.config.memDepth ∧
        f = ⟨.addressOutOfRange, j, s.config.memDepth⟩) := by
  unfold fetchInstr at h
  rcases h1 : checkAddr s.config s.pc.toInt 0 with g | ip
  · simp only [h1, bind, Except.bind, Except.error.injEq] at h
    subst h
    rcases (checkAddr_error _ _ _ _).1 h1 with h | h
    · exact .inl h
    · exact .inr (.inl h)
  · obtain ⟨h0, hlt, rfl⟩ := (checkAddr_ok _ _ _ _).1 h1
    have hw : s.read s.pc.toInt.toNat = s.instrWord := rfl
    simp only [h1, bind, Except.bind, hw] at h
    rcases h2 : decodeWord s.config.highDigits s.instrWord with g | d
    · simp only [h2, Except.error.injEq] at h
      subst h
      exact .inr (.inr (.inl ⟨h0, hlt, rfl⟩))
    · simp only [h2] at h
      rcases h3 : checkOperandWords s.config s.pc.toInt 1 (opLen d.op - 1) with g | u
      · simp only [h3, Except.error.injEq] at h
        subst h
        obtain ⟨j, hj1, hj2, hj3, rfl, hj5⟩ := checkOperandWords_error _ _ _ _ _ h0 h3
        have he : s.pc.toInt + j = s.config.memDepth := by
          rcases Nat.eq_or_lt_of_le hj1 with rfl | hlt'
          · push_cast at hj3 ⊢; omega
          · have := hj5 (j - 1) (by omega) (by omega)
            omega
        exact .inr (.inr (.inr ⟨h0, hlt, d, rfl, j, hj1, by omega, he, by rw [he]⟩))
      · simp [h3] at h

/-- Everything a step can do (R117, R118): nothing in a terminal status, a fault on the way to the instruction, or the
instruction. -/
theorem step_next (s t : State) :
    step s = .next t ↔
      (s.status.terminal = true ∧ t = s) ∨
      (s.status.terminal = false ∧ ∃ f, fetchInstr s.begin = .error f ∧ t = raiseFault f s.begin) ∨
      (s.status.terminal = false ∧ ∃ i, fetchInstr s.begin = .ok i ∧ exec i s.begin = .next t) := by
  unfold step
  cases hs : s.status.terminal
  · rcases hf : fetchInstr s.begin with f | i <;> simp [eq_comm]
  · simp [eq_comm]

end Sys2Proof.Machine
end

