-- ==== Sys2Proof/Laws/Step.lean ====
section
/-! SUPPORT. What an instruction can do to a state, said once: `exec i s = .next t` is one of the cases of `Effect`.
Frames and invariants are read off it, without unfolding a meaning. -/

namespace Sys2Proof.Machine

/-- The effects an instruction `i` begun in `s` can have. -/
inductive Effect (i : Instr) (s : State) : State → Prop where
  /-- a parameter did not resolve (spec/60_exceptions.md R256) -/
  | addressFault (f : FaultInfo) (k : Nat) (p : Param) (h : resolve s k p = .error f)
      (hp : (instrParams i)[k - 1]? = some p) (hk : 1 ≤ k ∧ k ≤ 3) : Effect i s (raiseFault f s)
  /-- the exact result is no Word (R255) -/
  | overflow (f : FaultInfo) (k : Nat) (r : Int) (h : checkResult s k r = .error f)
      (hi : (k = 3 ∧ ∃ p1 p2 p3, i = .add p1 p2 p3 ∨ i = .mul p1 p2 p3) ∨ (k = 1 ∧ ∃ p1, i = .arb p1)) :
      Effect i s (raiseFault f s)
  /-- an ALU instruction stored its result (R141 to R144) -/
  | store (k : Nat) (p : Param) (d : Nat) (v : Word) (h : resolve s k p = .ok d)
      (hw : k ∈ writeTargets (shapeOf i).op) (hp : (instrParams i)[k - 1]? = some p)
      (hl : opLen (shapeOf i).op = 4) : Effect i s ((s.write d v).advance 4)
  /-- an Input stored the value it took (R160) -/
  | input (p : Param) (d : Nat) (v : Word) (hi : i = .inp p) (h : resolve s 1 p = .ok d)
      (hv : (pollInput s).1 = some v) : Effect i s (((pollInput s).2.write d v).advance 2)
  /-- an Input found no value (R165) -/
  | suspend (p : Param) (d : Nat) (hi : i = .inp p) (h : resolve s 1 p = .ok d) (hv : (pollInput s).1 = none) :
      Effect i s { (pollInput s).2 with status := .awaitingInput }
  /-- an Output emitted (R170) -/
  | output (p : Param) (v : Word) (hi : i = .out p) (h : readParam s 1 p = .ok v) :
      Effect i s (if s.stopOnOutput then { (emit v s).advance 2 with status := .producedOutput } else (emit v s).advance 2)
  /-- a jump was taken (R190, R191) -/
  | jump (p1 p2 : Param) (a v : Word) (hi : (i = .jt p1 p2 ∧ a ≠ 0) ∨ (i = .jf p1 p2 ∧ a = 0))
      (h1 : readParam s 1 p1 = .ok a) (h2 : readParam s 2 p2 = .ok v) : Effect i s (s.jumpTo v)
  /-- a jump was not taken -/
  | fallThrough (p1 p2 : Param) (hi : i = .jt p1 p2 ∨ i = .jf p1 p2) : Effect i s (s.advance 3)
  /-- AdjustRelativeBase wrote rb (R210) -/
  | adjust (p : Param) (r : Word) (hi : i = .arb p) : Effect i s (State.advance { s with rb := r } 2)
  /-- Halt (R192) -/
  | halt (hi : i = .hlt) : Effect i s { s with status := .halted }

/-- The four ALU instructions, each with its operation. -/
theorem effect_of_alu (op : AluOp) (i : Instr) (p1 p2 p3 : Param) (s t : State)
    (hi : (op = .add ∧ i = .add p1 p2 p3) ∨ (op = .multiply ∧ i = .mul p1 p2 p3) ∨ (op = .lessThan ∧ i = .lt p1 p2 p3) ∨
      (op = .equals ∧ i = .eq p1 p2 p3))
    (h : settle s (aluInstr op p1 p2 p3 s) = .next t) : Effect i s t := by
  have hp : instrParams i = [p1, p2, p3] := by rcases hi with ⟨_, rfl⟩ | ⟨_, rfl⟩ | ⟨_, rfl⟩ | ⟨_, rfl⟩ <;> rfl
  rcases (settle_next _ _ _).1 h with h | ⟨f, hf, rfl⟩
  · obtain ⟨a, b, d, _, _, hd, _, rfl⟩ := (aluInstr_ok _ _ _ _ _ _).1 h
    refine .store 3 p3 d _ hd ?_ (by simp [hp]) ?_ <;>
      rcases hi with ⟨_, rfl⟩ | ⟨_, rfl⟩ | ⟨_, rfl⟩ | ⟨_, rfl⟩ <;> simp [writeTargets, shapeOf, opLen]
  · rcases (aluInstr_error _ _ _ _ _ _).1 hf with h | ⟨a, h1, h | ⟨b, h2, h | ⟨d, h3, h⟩⟩⟩
    · exact .addressFault f 1 p1 h (by simp [hp]) (by simp)
    · exact .addressFault f 2 p2 h (by simp [hp]) (by simp)
    · exact .addressFault f 3 p3 h (by simp [hp]) (by simp)
    · refine .overflow f 3 _ h (.inl ⟨rfl, p1, p2, p3, ?_⟩)
      have ho := ((checkResult_error _ _ _ _).1 h).1
      have hc := aluExact_compare op a.toInt b.toInt
      rcases hi with ⟨_, rfl⟩ | ⟨_, rfl⟩ | ⟨e, rfl⟩ | ⟨e, rfl⟩
      · exact .inl rfl
      · exact .inr rfl
      · rcases hc (.inl e) with hc | hc <;> rw [hc] at ho <;> simp [minWord, maxWord] at ho
      · rcases hc (.inr e) with hc | hc <;> rw [hc] at ho <;> simp [minWord, maxWord] at ho

/-- The two jumps, each with its condition. -/
theorem effect_of_jump (taken : Word → Bool) (i : Instr) (p1 p2 : Param) (s t : State)
    (hi : ((∀ a, taken a = (a != 0)) ∧ i = .jt p1 p2) ∨ ((∀ a, taken a = (a == 0)) ∧ i = .jf p1 p2))
    (h : settle s (jumpInstr taken p1 p2 s) = .next t) : Effect i s t := by
  have hp : instrParams i = [p1, p2] := by rcases hi with ⟨_, rfl⟩ | ⟨_, rfl⟩ <;> rfl
  rcases (settle_next _ _ _).1 h with h | ⟨f, hf, rfl⟩
  · obtain ⟨a, v, h1, h2, rfl⟩ := (jumpInstr_ok _ _ _ _ _).1 h
    split_ifs with ht
    · refine .jump p1 p2 a v ?_ h1 h2
      rcases hi with ⟨e, rfl⟩ | ⟨e, rfl⟩ <;> rw [e] at ht <;> simpa using ht
    · exact .fallThrough p1 p2 (by rcases hi with ⟨_, h⟩ | ⟨_, h⟩ <;> simp [h])
  · rcases (jumpInstr_error _ _ _ _ _).1 hf with h | ⟨a, h1, h⟩
    · exact .addressFault f 1 p1 h (by simp [hp]) (by simp)
    · exact .addressFault f 2 p2 h (by simp [hp]) (by simp)

/-- Everything exec can do. -/
theorem exec_effect (i : Instr) (s t : State) (h : exec i s = .next t) : Effect i s t := by
  cases i with
  | add p1 p2 p3 => exact effect_of_alu .add _ p1 p2 p3 s t (by simp) h
  | mul p1 p2 p3 => exact effect_of_alu .multiply _ p1 p2 p3 s t (by simp) h
  | lt p1 p2 p3 => exact effect_of_alu .lessThan _ p1 p2 p3 s t (by simp) h
  | eq p1 p2 p3 => exact effect_of_alu .equals _ p1 p2 p3 s t (by simp) h
  | inp p1 =>
    rcases (execInp_next _ _ _).1 h with ⟨f, hf, rfl⟩ | ⟨d, v, h1, h2, rfl⟩ | ⟨d, h1, h2, rfl⟩
    · exact .addressFault f 1 p1 hf rfl (by simp)
    · exact .input p1 d v rfl h1 h2
    · exact .suspend p1 d rfl h1 h2
  | out p1 =>
    rcases (execOut_next _ _ _).1 h with ⟨f, hf, rfl⟩ | ⟨v, h1, rfl⟩
    · exact .addressFault f 1 p1 hf rfl (by simp)
    · exact .output p1 v rfl h1
  | jt p1 p2 => exact effect_of_jump _ _ p1 p2 s t (.inl ⟨fun _ => rfl, rfl⟩) h
  | jf p1 p2 => exact effect_of_jump _ _ p1 p2 s t (.inr ⟨fun _ => rfl, rfl⟩) h
  | arb p1 =>
    rcases (execArb_next _ _ _).1 h with ⟨f, hf, rfl⟩ | ⟨v, h1, ⟨f, hf, rfl⟩ | ⟨r, h2, rfl⟩⟩
    · exact .addressFault f 1 p1 hf rfl (by simp)
    · exact .overflow f 1 _ hf (.inr ⟨rfl, p1, rfl⟩)
    · exact .adjust p1 r rfl
  | hlt =>
    simp only [exec, execHlt, Host.Outcome.next.injEq] at h
    exact h ▸ .halt rfl

/-- A step leaves the parameters and the command in progress alone. -/
theorem step_config_activity (s t : State) (h : step s = .next t) : t.config = s.config ∧ t.activity = s.activity := by
  rcases (step_next s t).1 h with ⟨-, rfl⟩ | ⟨-, f, -, rfl⟩ | ⟨-, i, -, he⟩
  · exact ⟨rfl, rfl⟩
  · exact ⟨rfl, rfl⟩
  · have hp := pollInput_frame s.begin
    cases exec_effect _ _ _ he with
    | input p d v hi hr hv => rw [hp]; exact ⟨rfl, rfl⟩
    | suspend p d hi hr hv => rw [hp]; exact ⟨rfl, rfl⟩
    | output p v hi hr => split_ifs <;> exact ⟨rfl, rfl⟩
    | _ => exact ⟨rfl, rfl⟩

end Sys2Proof.Machine
end

