-- ==== Sys2Proof/Laws/Host.lean ====
section
/-! SUPPORT. The operations of the host port: everything each can answer, said once. -/

namespace Sys2Proof.Machine

/-- An idle core accepts (spec/45_host.md R220). -/
theorem issue_idle (c : Command) (s : State) (h : s.activity = .idle) : issue c s = accept c s := by simp [issue, h]

/-- A busy core does not. -/
theorem issue_busy (c : Command) (s : State) (h : s.activity ≠ .idle) : issue c s = (s, none) := by
  unfold issue
  cases ha : s.activity with
  | idle => exact absurd ha h
  | step => rfl
  | run a b => rfl

theorem stepState_of_next (s t : State) (h : step s = .next t) : stepState s = t := by simp [stepState, h]

/-- Every step answers a next state, so `stepState` is it. -/
theorem step_stepState (s : State) : step s = .next (stepState s) := by
  unfold stepState step
  split_ifs
  · rfl
  · cases fetchInstr s.begin with
    | error f => rfl
    | ok i =>
      obtain ⟨t, h⟩ := exec_answers i s.begin
      simp only [h]

@[simp] theorem stepState_config (s : State) : (stepState s).config = s.config :=
  (step_config_activity s _ (step_stepState s)).1
@[simp] theorem stepState_activity (s : State) : (stepState s).activity = s.activity :=
  (step_config_activity s _ (step_stepState s)).2

/-- R118. -/
theorem stepState_terminal (s : State) (h : s.status.terminal = true) : stepState s = s := by simp [stepState, step, h]

/-- An instruction reads the command in progress only through the stop flag. -/
theorem exec_withActivity (i : Instr) (s t : State) (a : Activity)
    (h : State.stopOnOutput { s with activity := a } = s.stopOnOutput) (he : exec i s = .next t) :
    exec i { s with activity := a } = .next { t with activity := a } := by
  have hs : ∀ (r : Except FaultInfo State) (t : State), settle s r = .next t →
      settle { s with activity := a } (r.map fun u => { u with activity := a }) = .next { t with activity := a } := by
    intro r t hr
    cases r <;> simp only [settle, Host.Outcome.next.injEq] at hr <;> subst hr <;> rfl
  have alu : ∀ op p1 p2 p3, aluInstr op p1 p2 p3 { s with activity := a } =
      (aluInstr op p1 p2 p3 s).map fun u => { u with activity := a } := by
    intro op p1 p2 p3
    change (do
      let x ← readParam s 1 p1
      let y ← readParam s 2 p2
      let d ← resolve s 3 p3
      let r ← checkResult s 3 (aluExact op x.toInt y.toInt)
      Except.ok ((State.write { s with activity := a } d r).advance 4)) = _
    unfold aluInstr
    cases readParam s 1 p1 with
    | error f => rfl
    | ok x =>
      cases readParam s 2 p2 with
      | error f => rfl
      | ok y =>
        cases resolve s 3 p3 with
        | error f => rfl
        | ok d =>
          simp only [bind, Except.bind]
          cases checkResult s 3 (aluExact op x.toInt y.toInt) <;> rfl
  have jump : ∀ taken p1 p2, jumpInstr taken p1 p2 { s with activity := a } =
      (jumpInstr taken p1 p2 s).map fun u => { u with activity := a } := by
    intro taken p1 p2
    change (do
      let x ← readParam s 1 p1
      let v ← readParam s 2 p2
      Except.ok (if taken x then State.jumpTo { s with activity := a } v else State.advance { s with activity := a } 3)) = _
    unfold jumpInstr
    cases readParam s 1 p1 with
    | error f => rfl
    | ok x =>
      cases readParam s 2 p2 with
      | error f => rfl
      | ok v =>
        simp only [bind, Except.bind, Except.map]
        cases taken x <;> rfl
  cases i with
  | add p1 p2 p3 => exact (congrArg _ (alu .add p1 p2 p3)).trans (hs _ _ he)
  | mul p1 p2 p3 => exact (congrArg _ (alu .multiply p1 p2 p3)).trans (hs _ _ he)
  | lt p1 p2 p3 => exact (congrArg _ (alu .lessThan p1 p2 p3)).trans (hs _ _ he)
  | eq p1 p2 p3 => exact (congrArg _ (alu .equals p1 p2 p3)).trans (hs _ _ he)
  | jt p1 p2 => exact (congrArg _ (jump _ p1 p2)).trans (hs _ _ he)
  | jf p1 p2 => exact (congrArg _ (jump _ p1 p2)).trans (hs _ _ he)
  | inp p1 =>
    have hq : pollInput { s with activity := a } = ((pollInput s).1, { (pollInput s).2 with activity := a }) := by
      rcases pollInput_cases s with ⟨v, hf, hp⟩ | ⟨hf, hp⟩ <;> rw [hp] <;> simp [pollInput, hf]
    rcases (execInp_next _ _ _).1 he with ⟨f, hf, rfl⟩ | ⟨d, v, h1, h2, rfl⟩ | ⟨d, h1, h2, rfl⟩
    · exact (execInp_next _ _ _).2 (.inl ⟨f, hf, rfl⟩)
    · exact (execInp_next _ _ _).2 (.inr (.inl ⟨d, v, h1, by rw [hq]; exact h2, by rw [hq]; rfl⟩))
    · exact (execInp_next _ _ _).2 (.inr (.inr ⟨d, h1, by rw [hq]; exact h2, by rw [hq]⟩))
  | out p1 =>
    rcases (execOut_next _ _ _).1 he with ⟨f, hf, rfl⟩ | ⟨v, h1, rfl⟩
    · exact (execOut_next _ _ _).2 (.inl ⟨f, hf, rfl⟩)
    · exact (execOut_next _ _ _).2 (.inr ⟨v, h1, by rw [h]; split_ifs <;> rfl⟩)
  | arb p1 =>
    rcases (execArb_next _ _ _).1 he with ⟨f, hf, rfl⟩ | ⟨v, h1, ⟨f, hf, rfl⟩ | ⟨r, h2, rfl⟩⟩
    · exact (execArb_next _ _ _).2 (.inl ⟨f, hf, rfl⟩)
    · exact (execArb_next _ _ _).2 (.inr ⟨v, h1, .inl ⟨f, hf, rfl⟩⟩)
    · exact (execArb_next _ _ _).2 (.inr ⟨v, h1, .inr ⟨r, h2, rfl⟩⟩)
  | hlt =>
    simp only [exec, execHlt, Host.Outcome.next.injEq] at he
    subst he
    rfl

/-- The step of a command in progress is the step of an idle core with the same stop flag. -/
theorem stepState_withActivity (s : State) (a : Activity)
    (h : State.stopOnOutput { s with activity := a } = s.stopOnOutput) :
    stepState { s with activity := a } = { stepState s with activity := a } := by
  apply stepState_of_next
  rcases (step_next _ _).1 (step_stepState s) with ⟨hn, ht⟩ | ⟨hn, f, hf, ht⟩ | ⟨hn, i, hf, he⟩
  · rw [ht]; exact (step_next _ _).2 (.inl ⟨hn, rfl⟩)
  · rw [ht]; exact (step_next _ _).2 (.inr (.inl ⟨hn, f, hf, rfl⟩))
  · exact (step_next _ _).2 (.inr (.inr ⟨hn, i, hf, exec_withActivity i s.begin _ a h he⟩))

/-- A STEP that nothing interrupts (40_engine.md R119). -/
theorem stepCommand_eq (s : State) (h : s.activity = .idle) :
    stepCommand s = (stepState s, some (respond .ok (outputValue (stepState s)) (stepState s))) := by
  have hs : stepState { s with activity := .step } = { stepState s with activity := .step } :=
    stepState_withActivity s .step (by simp [State.stopOnOutput, h])
  have ha : { stepState s with activity := .idle } = stepState s := by rw [← h, ← stepState_activity s]
  have hf : finishCommand .ok { stepState s with activity := .step } =
      ({ stepState s with activity := .idle }, some (respond .ok (outputValue (stepState s)) (stepState s))) := rfl
  simp only [stepCommand, issue_idle _ _ h, accept, startCommand, tick]
  rw [hs, hf, ha]

/-- One turn of a RUN (R120). -/
theorem tick_run (s : State) (si so : Bool) (h : s.activity = .run si so) :
    tick s = if (stepState s).status = .running then (stepState s, none)
      else finishCommand (runCode si (stepState s).status) (stepState s) := by
  simp only [tick, h]

/-- Reset inside a step, of a busy core. -/
theorem resetInStep_busy (s : State) (h : s.activity ≠ .idle) : resetInStep s = resetPort (stepState s) := by
  unfold resetInStep
  cases ha : s.activity with
  | idle => exact absurd ha h
  | step => rfl
  | run a b => rfl

/-- R224, R225: the two errors of an address, and the address. -/
theorem hostAddr_cases (c : Config) (a : Int) :
    (a < 0 ∧ hostAddr c a = .error .hostNegativeAddress) ∨
    (0 ≤ a ∧ c.memDepth ≤ a ∧ hostAddr c a = .error .hostAddressOutOfRange) ∨
    (0 ≤ a ∧ a < c.memDepth ∧ hostAddr c a = .ok a.toNat) := by
  unfold hostAddr
  split_ifs with h1 h2
  · exact .inl ⟨h1, rfl⟩
  · exact .inr (.inl ⟨by omega, h2, rfl⟩)
  · exact .inr (.inr ⟨by omega, by omega, rfl⟩)

/-- What the host can leave behind: one word written (R225). -/
theorem State.inv_write (s : State) (a : Nat) (v : Word) (ha : a < s.config.memDepth) (h : s.Inv) : (s.write a v).Inv := by
  obtain ⟨hc, hm, hb, hf, hr⟩ := h
  exact ⟨hc, Memory.write_wf s.mem a v hm, Memory.write_below s.mem a _ v hb ha, hf, hr⟩

/-- What LOAD, RESTORE and reset leave is legal when the memory they install is. -/
theorem freshState_inv (m : Memory) (pc rb : Word) (s : State) (hc : s.config.legal) (hm : m.wf)
    (hb : m.below s.config.memDepth) : (freshState m pc rb s).Inv := ⟨hc, hm, hb, by simp [freshState], rfl⟩

end Sys2Proof.Machine
end

