-- ==== Sys2Proof/Laws/PerInstr.lean ====
section
/-! SUPPORT. Statements about every instruction as syntax, one lemma per constructor. -/

namespace Sys2Proof.Laws.EncodedShape

/-- An instruction encodes as L(op) words, the first a canonical word of at most five digits whose last two are the
opcode (spec/30_encoding.md R80, R86, R95). -/
def Statement (i : Instr) : Prop :=
  (encode i).length = opLen (shapeOf i).op ∧
    ∃ w, (encode i).head? = some w ∧ w.toNat < 22300 ∧ w.toNat % 100 = opCode (shapeOf i).op

/-- The one argument all ten share. -/
theorem of_length (i : Instr) (h : (instrParams i).length + 1 = opLen (shapeOf i).op) : Statement i :=
  ⟨by simpa [encode] using h, _, rfl, encodeWord_lt _, encodeWord_opcode _⟩

theorem add (p1 p2 p3 : Param) : Statement (.add p1 p2 p3) := of_length _ rfl
theorem mul (p1 p2 p3 : Param) : Statement (.mul p1 p2 p3) := of_length _ rfl
theorem inp (p1 : Param) : Statement (.inp p1) := of_length _ rfl
theorem out (p1 : Param) : Statement (.out p1) := of_length _ rfl
theorem jt (p1 p2 : Param) : Statement (.jt p1 p2) := of_length _ rfl
theorem jf (p1 p2 : Param) : Statement (.jf p1 p2) := of_length _ rfl
theorem lt (p1 p2 p3 : Param) : Statement (.lt p1 p2 p3) := of_length _ rfl
theorem eq (p1 p2 p3 : Param) : Statement (.eq p1 p2 p3) := of_length _ rfl
theorem arb (p1 : Param) : Statement (.arb p1) := of_length _ rfl
theorem hlt : Statement .hlt := of_length _ rfl

end Sys2Proof.Laws.EncodedShape
end

