-- ==== Sys2Proof/Machine/Assembler.lean ====
section
/-! DEFINITION. The assembly notation of spec/30_encoding.md R93 to R95, as lines already read: the two passes that
place labels and emit words. Reading the characters of a line is no part of the hardware (notes/assumptions/19.md). -/

namespace Sys2Proof.Machine

/-- A number in an operand: a signed Word, or a label, which stands for its address (R93). -/
inductive AsmNum where
  | lit (v : Word)
  | label (name : String)
deriving DecidableEq, Repr

/-- The three operand forms: `n`, `[n]`, `[rb+n]` (R93). DESIGN CHOICE (notes/assumptions/23.md): a label may stand for n
inside `[n]` and `[rb+n]` too, where R93 speaks only of a label used as an operand. -/
inductive AsmOperand where
  | imm (n : AsmNum)
  | pos (n : AsmNum)
  | rel (n : AsmNum)
deriving DecidableEq, Repr

/-- What a line holds: an instruction or raw words (R93). DESIGN CHOICE (notes/assumptions/23.md): a `data` line may list
labels among its values, and may bear a label (`AsmLine`), as an instruction may. -/
inductive AsmBody where
  | instr (op : Op) (operands : List AsmOperand)
  | data (values : List AsmNum)
deriving DecidableEq, Repr

/-- A line, with the label before it if there is one (R93; on a `data` line: notes/assumptions/23.md). -/
structure AsmLine where
  label : Option String
  body : AsmBody
deriving DecidableEq, Repr

/-- The mnemonics (30_encoding.md R86). -/
def mnemonic : Op → String
  | .add => "add"
  | .mul => "mul"
  | .inp => "in"
  | .out => "out"
  | .jt => "jt"
  | .jf => "jf"
  | .lt => "lt"
  | .eq => "eq"
  | .arb => "arb"
  | .hlt => "hlt"

/-- The mode an operand form stands for (R93). -/
def asmMode : AsmOperand → Mode
  | .imm _ => .immediate
  | .pos _ => .position
  | .rel _ => .relative

/-- The number in an operand. -/
def asmNum : AsmOperand → AsmNum
  | .imm n => n
  | .pos n => n
  | .rel n => n

/-- The words a line takes. -/
def asmLength : AsmBody → Nat
  | .instr op _ => opLen op
  | .data values => values.length

/-- First pass: the address of each label, the first line at address `at0`. -/
def asmLabels : Nat → List AsmLine → List (String × Nat)
  | _, [] => []
  | at0, line :: rest =>
    match line.label with
    | some name => (name, at0) :: asmLabels (at0 + asmLength line.body) rest
    | none => asmLabels (at0 + asmLength line.body) rest

/-- The Word a number stands for; a label that no line bears has none. DESIGN CHOICE (notes/assumptions/23.md): of two
lines bearing the same label the first one's address counts, and an address that is no Word is taken modulo 2^64. -/
def asmValue (labels : List (String × Nat)) : AsmNum → Option Word
  | .lit v => some v
  | .label name => (labels.lookup name).map (BitVec.ofNat 64)

/-- The mode of the k-th operand, Position for operands an instruction does not have (R95). -/
def asmModeAt (operands : List AsmOperand) (k : Nat) : Mode :=
  ((operands[k - 1]?).map asmMode).getD .position

/-- The words of one line: an instruction has exactly L(op)-1 operands and a canonical word (R93, R95). DESIGN CHOICE
(notes/assumptions/23.md): an Immediate write target is assembled, to the word the decoder refuses (R88), and a `data`
line may hold no values. -/
def asmWords (labels : List (String × Nat)) : AsmBody → Option (List Word)
  | .instr op operands =>
    if operands.length = opLen op - 1 then
      (operands.mapM (fun o => asmValue labels (asmNum o))).map
        (fun raws => encodeWord ⟨op, asmModeAt operands 1, asmModeAt operands 2, asmModeAt operands 3⟩ :: raws)
    else none
  | .data values => values.mapM (asmValue labels)

/-- Second pass: the program image of the lines (R93). -/
def assemble (lines : List AsmLine) : Option (List Word) :=
  (lines.mapM (fun line => asmWords (asmLabels 0 lines) line.body)).map List.flatten

end Sys2Proof.Machine
end

