-- ==== Sys2Proof/Tests/Slice0.lean ====
section
/-! SUPPORT. Tests: expected values come from spec/95_test_vectors.md (the vector is named in each docstring) or from
the decimal encoding of spec/30_encoding.md by hand. Then, per obligation with hypotheses, a witness that they can be
met together. -/

namespace Sys2Proof.Tests

open Sys2Proof.Machine

/-- "LOAD p" of the vectors' conventions. -/
def loaded (program : List Word) : State := { State.reset with mem := Memory.image program 0 }

/-- "MEM_DEPTH = n; LOAD p". -/
def loadedIn (depth : Nat) (program : List Word) : State :=
  { loaded program with config := { memDepth := depth, highDigits := .ignore } }

/-- The fault record as the vectors write it: `fault (cause, param, value)`. -/
def record (s : State) : FaultCause × Nat × Int := (s.faultCause, s.faultParam.toNat, s.faultValue.toInt)

/-! ## WellFormed: an ill-formed term per check, refused (R88) -/

theorem test_wf_add : Instr.wellFormed (.add ⟨.position, 1⟩ ⟨.position, 2⟩ ⟨.immediate, 3⟩) = false := by decide
theorem test_wf_mul : Instr.wellFormed (.mul ⟨.position, 1⟩ ⟨.position, 2⟩ ⟨.immediate, 3⟩) = false := by decide
theorem test_wf_lt : Instr.wellFormed (.lt ⟨.position, 1⟩ ⟨.position, 2⟩ ⟨.immediate, 3⟩) = false := by decide
theorem test_wf_eq : Instr.wellFormed (.eq ⟨.position, 1⟩ ⟨.position, 2⟩ ⟨.immediate, 3⟩) = false := by decide
theorem test_wf_inp : Instr.wellFormed (.inp ⟨.immediate, 3⟩) = false := by decide

/-- Immediate is refused on a write target only. -/
theorem test_wf_legal :
    Instr.wellFormed (.add ⟨.immediate, 1⟩ ⟨.immediate, 2⟩ ⟨.relative, 3⟩) = true ∧
    Instr.wellFormed (.out ⟨.immediate, 3⟩) = true := by decide

/-! ## Decode: every constructor's word, and the refusals -/

/-- V-DEC-15: 21101 is Add, modes I, I, R. -/
theorem test_decode_add :
    decode .ignore [21101, 7, 8, -9] = .ok (.add ⟨.immediate, 7⟩ ⟨.immediate, 8⟩ ⟨.relative, -9⟩, []) := by decide
/-- V-DEC-1: 1002 is Multiply, modes P, I, P. -/
theorem test_decode_mul :
    decode .ignore [1002, 4, 3, 4, 33] = .ok (.mul ⟨.position, 4⟩ ⟨.immediate, 3⟩ ⟨.position, 4⟩, [33]) := by decide
/-- V-DEC-2 and V-DEC-17: 3 and 203 are Input, modes P and R. -/
theorem test_decode_inp :
    decode .ignore [3, 5] = .ok (.inp ⟨.position, 5⟩, []) ∧ decode .ignore [203, 5] = .ok (.inp ⟨.relative, 5⟩, []) := by
  decide
/-- V-DEC-21: 10004 is Output, mode P. -/
theorem test_decode_out : decode .ignore [10004, 5] = .ok (.out ⟨.position, 5⟩, []) := by decide
/-- V-DEC-24: 1105 is JumpIfTrue, modes I, I. -/
theorem test_decode_jt : decode .ignore [1105, 1, 9] = .ok (.jt ⟨.immediate, 1⟩ ⟨.immediate, 9⟩, []) := by decide
/-- V-DEC-25: 2106 is JumpIfFalse, modes I, R. -/
theorem test_decode_jf : decode .ignore [2106, 1, 9] = .ok (.jf ⟨.immediate, 1⟩ ⟨.relative, 9⟩, []) := by decide
/-- V-DEC-26: 1107 is LessThan, modes I, I, P. -/
theorem test_decode_lt :
    decode .ignore [1107, 1, 2, 3] = .ok (.lt ⟨.immediate, 1⟩ ⟨.immediate, 2⟩ ⟨.position, 3⟩, []) := by decide
/-- V-DEC-27: 20008 is Equals, modes P, P, R. -/
theorem test_decode_eq :
    decode .ignore [20008, 1, 2, 3] = .ok (.eq ⟨.position, 1⟩ ⟨.position, 2⟩ ⟨.relative, 3⟩, []) := by decide
/-- V-DEC-23 and V-DEC-28: 22209 and 109 are AdjustRelativeBase, modes R and I. -/
theorem test_decode_arb :
    decode .ignore [22209, 5] = .ok (.arb ⟨.relative, 5⟩, []) ∧ decode .ignore [109, -5] = .ok (.arb ⟨.immediate, -5⟩, []) := by
  decide
/-- V-DEC-3, V-DEC-4, V-DEC-5: 99, 199, 2099 are Halt. -/
theorem test_decode_hlt :
    decode .ignore [99] = .ok (.hlt, []) ∧ decode .ignore [199] = .ok (.hlt, []) ∧
    decode .ignore [2099] = .ok (.hlt, []) := by decide

/-- V-DEC-6 to V-DEC-20: the refusals, with their records. -/
theorem test_decode_refusals :
    decodeWord .ignore 399 = .error ⟨.badModeDigit, 1, 399⟩ ∧ decodeWord .ignore 3099 = .error ⟨.badModeDigit, 2, 3099⟩ ∧
    decodeWord .ignore 3000 = .error ⟨.invalidOpcode, 0, 3000⟩ ∧ decodeWord .ignore 0 = .error ⟨.invalidOpcode, 0, 0⟩ ∧
    decodeWord .ignore 10 = .error ⟨.invalidOpcode, 0, 10⟩ ∧ decodeWord .ignore 98 = .error ⟨.invalidOpcode, 0, 98⟩ ∧
    decodeWord .ignore 100 = .error ⟨.invalidOpcode, 0, 100⟩ ∧ decodeWord .ignore (-1) = .error ⟨.invalidOpcode, 0, -1⟩ ∧
    decodeWord .ignore (-99) = .error ⟨.invalidOpcode, 0, -99⟩ ∧
    decodeWord .ignore 11101 = .error ⟨.immediateWriteTarget, 3, 11101⟩ ∧
    decodeWord .ignore 103 = .error ⟨.immediateWriteTarget, 1, 103⟩ ∧
    decodeWord .ignore 30001 = .error ⟨.badModeDigit, 3, 30001⟩ ∧
    decodeWord .ignore 30003 = .error ⟨.badModeDigit, 3, 30003⟩ ∧
    decodeWord .ignore 1301 = .error ⟨.badModeDigit, 1, 1301⟩ := by decide

/-- V-DEC-22: 100001 under both settings of HIGH_DIGITS. -/
theorem test_decode_high_digits :
    decodeWord .ignore 100001 = .ok ⟨.add, .position, .position, .position⟩ ∧
    decodeWord .fault 100001 = .error ⟨.invalidOpcode, 0, 100001⟩ := by decide

/-- An opcode-table word: Add of 2 and 3 into word 5, four words of 64 bits. -/
theorem test_decode_table_word :
    decodeTableWord 256 (1101 + 2 * 2 ^ 64 + 3 * 2 ^ 128 + 5 * 2 ^ 192) =
      some (.add ⟨.immediate, 2⟩ ⟨.immediate, 3⟩ ⟨.position, 5⟩) ∧
    decodeTableWord 64 3000 = none := by decide

/-- The decoder's ports for 1002 and for 11101 (R91). -/
theorem test_decoder_block :
    decoderBlock .ignore 1002 = .ok 2 4 0 1 0 ∧ decoderBlock .ignore 11101 = .fault 3 3 := by decide

/-! ## One step per instruction -/

/-- V-ALU-5: MIN + MAX. -/
theorem test_add :
    let t := stepState (loaded [1101, -9223372036854775808, 9223372036854775807, 5, 0])
    t.read 5 = -1 ∧ t.pc = 4 ∧ t.status = .running := by decide
/-- V-ALU-3: MAX + 1. -/
theorem test_add_overflow :
    let t := stepState (loaded [1101, 9223372036854775807, 1, 5, 0])
    record t = (.arithmeticOverflow, 3, 1101) ∧ t.status = .faulted ∧ t.pc = 0 ∧ t.read 5 = 0 := by decide
/-- V-ALU-9: -2^62 * 2. -/
theorem test_mul :
    let t := stepState (loaded [1102, -4611686018427387904, 2, 5, 0])
    t.read 5 = -9223372036854775808 ∧ t.pc = 4 := by decide
/-- V-ALU-7: -1 * MIN. -/
theorem test_mul_overflow :
    record (stepState (loaded [1102, -1, -9223372036854775808, 5, 0])) = (.arithmeticOverflow, 3, 1102) := by decide
/-- V-ALU-11: a signed comparison. -/
theorem test_lt :
    let t := stepState (loaded [1107, -1, 0, 5, 0])
    t.read 5 = 1 ∧ t.pc = 4 := by decide
/-- V-ALU-18: the write target is resolved after p1 and p2. -/
theorem test_lt_target_fault :
    record (stepState (loaded [1107, 1, 2, -1])) = (.negativeAddress, 3, -1) := by decide
/-- V-ALU-15: 7 and -7 differ (0 is stored over a 1). -/
theorem test_eq : (stepState (loaded [1108, 7, -7, 5, 0, 1])).read 5 = 0 := by decide
/-- V-ALU-16: MAX = MAX. -/
theorem test_eq_max :
    (stepState (loaded [1108, 9223372036854775807, 9223372036854775807, 5, 0])).read 5 = 1 := by decide
/-- V-IO-7: an Input over its own word. -/
theorem test_inp :
    let t := stepState (issue (.feed 1101) (loaded [3, 0, 99])).1
    t.read 0 = 1101 ∧ t.pc = 2 ∧ t.feed = none ∧ t.status = .running := by decide
/-- V-IO-5: nothing is consumed by a faulting Input. -/
theorem test_inp_fault :
    let t := stepState (issue (.feed 7) (loaded [3, -1, 99])).1
    record t = (.negativeAddress, 1, -1) ∧ t.feed = some 7 := by decide
/-- V-IO-14: Relative output. -/
theorem test_out :
    let r := stepCommand { loaded [204, -1, 99] with rb := 1 }
    r.1.status = .producedOutput ∧ r.1.pc = 2 ∧ r.1.out = some 204 ∧ r.1.sink = [204] := by decide
/-- V-IO-13: nothing is latched by a faulting Output. -/
theorem test_out_fault :
    let t := stepState (loaded [4, -3, 99])
    record t = (.negativeAddress, 1, -3) ∧ t.out = none ∧ t.sink = [] := by decide
/-- V-CTL-5: condition and target in Position mode. -/
theorem test_jt : (stepState (loaded [5, 3, 4, 7, 12])).pc = 12 := by decide
/-- V-CTL-6: a jump not taken still resolves p2. -/
theorem test_jt_not_taken_fault : record (stepState (loaded [105, 0, -1])) = (.negativeAddress, 2, -1) := by decide
/-- V-CTL-3: JumpIfFalse taken. -/
theorem test_jf : (stepState (loaded [1106, 0, 9])).pc = 9 := by decide
/-- V-CTL-4: JumpIfFalse not taken. -/
theorem test_jf_not_taken : (stepState (loaded [1106, 5, 9])).pc = 3 := by decide
/-- V-ARB-4: the operand is read through the old rb. -/
theorem test_arb :
    let t := stepState { loaded [209, 2, 7, 99] with rb := 1 }
    t.rb = 100 ∧ t.pc = 2 := by decide
/-- V-ARB-3: overflow leaves rb. -/
theorem test_arb_overflow :
    let t := stepState { loaded [109, 1, 99] with rb := 9223372036854775807 }
    record t = (.arithmeticOverflow, 1, 109) ∧ t.rb = 9223372036854775807 := by decide
/-- V-CTL-9: Halt keeps pc, and a second step changes nothing. -/
theorem test_hlt :
    let t := stepState (loaded [99])
    t.status = .halted ∧ t.pc = 0 ∧ stepState t = t := by decide

/-! ## Fetch, the host port, reset -/

/-- V-ADR-8: an operand word outside the array. -/
theorem test_operand_word_outside :
    record (stepState (loadedIn 3 [1101, 1, 1])) = (.addressOutOfRange, 3, 3) := by decide
/-- V-ADR-4: a negative operand word under Relative. -/
theorem test_relative_read :
    (stepState { loaded [201, -5, 0, 6] with rb := 5 }).read 6 = 402 := by decide
/-- V-ADR-10: a jump to -3 faults at the next fetch, and pc stays. -/
theorem test_fetch_negative :
    let t := stepState (stepState (loaded [1105, 1, -3]))
    record t = (.negativeAddress, 0, -3) ∧ t.pc = -3 := by decide
/-- V-HST-6 and V-HST-3: the host-port errors. -/
theorem test_host_errors :
    (issue (.load [1, 2, 3, 4, 5]) (loadedIn 4 [])).2.map Response.code = some .imageTooLarge ∧
    (issue (.readMemory 16) (loadedIn 16 [99])).2.map Response.code = some .hostAddressOutOfRange := by decide
/-- V-IO-8: InputUnderflow under stop_on_input = false. -/
theorem test_input_underflow :
    let r := tick (issue (.run false true) (loaded [3, 5, 99])).1
    r.2.map Response.code = some .inputUnderflow ∧ r.1.status = .awaitingInput ∧ r.1.pc = 0 := by decide
/-- R280: a STEP abandoned by reset sends no response, neither with the reset nor later. -/
theorem test_reset_during_step :
    let s := (issue .step (loaded [104, -9])).1
    (issue .step (loaded [104, -9])).2 = none ∧ moveResponse .reset s = none ∧ applyMove .reset s = State.reset ∧
    tick (applyMove .reset s) = (State.reset, none) := by decide
/-- V-HST-1: a step after reset. -/
theorem test_reset_step : record (stepState (resetPort (loaded [99]))) = (.invalidOpcode, 0, 0) := by decide
/-- V-HST-12: RESTORE of a host-built Snapshot with pc = -7, then STEP. -/
theorem test_restore_negative_pc :
    let s := (issue (.restore ⟨-7, 0, []⟩) (loaded [99])).1
    s.status = .running ∧ record (stepState s) = (.negativeAddress, 0, -7) := by decide
/-- withFetchWord places an instruction that the very next step runs. -/
theorem test_with_fetch_word :
    stepState (State.reset.withFetchWord 64 99) = { State.reset.withFetchWord 64 99 with status := .halted } := by decide
/-- The assembler on the loop of V-L1-5: `arb 1`, `out [rb-1]`, `jf [101], 0`, with the label of word 0. -/
theorem test_assemble :
    assemble [⟨some "start", .instr .arb [.imm (.lit 1)]⟩, ⟨none, .instr .out [.rel (.lit (-1))]⟩,
      ⟨none, .instr .jf [.pos (.lit 101), .imm (.label "start")]⟩, ⟨none, .data [.lit 7]⟩] =
      some [109, 1, 204, -1, 1006, 101, 0, 7] := by decide

/-! ## Witnesses: the hypotheses of each obligation, met together -/

theorem witness_DecodeInvertsEncode :
    Instr.wellFormed (.add ⟨.immediate, -1⟩ ⟨.relative, 2⟩ ⟨.relative, 3⟩) = true := by decide
/-- A word with high digits, and one with an unused digit, whose canonical word is 99. -/
theorem witness_LegalWordIsItsEncodingModuloHighDigits :
    decodeWord .ignore 921101 = .ok ⟨.add, .immediate, .immediate, .relative⟩ ∧
    (encodeWord ⟨.add, .immediate, .immediate, .relative⟩).toNat = 921101 % 100000 ∧
    decodeWord .ignore 199 = .ok ⟨.hlt, .immediate, .position, .position⟩ ∧
    (encodeWord ⟨.hlt, .immediate, .position, .position⟩).toNat = 199 ∧ encode .hlt = [99] := by decide
/-- Each clause at a boundary of its range, no word under two of them. -/
theorem witness_DecoderReportsTheFirstCause :
    (-1 : Word).toInt < 0 ∧ (98 : Word).toNat % 100 ∉ [1, 2, 3, 4, 5, 6, 7, 8, 9, 99] ∧
    2 < (302 : Word).toNat / 100 % 10 ∧ 2 < (3202 : Word).toNat / 1000 % 10 ∧ 2 < (32202 : Word).toNat / 10000 % 10 ∧
    (12208 : Word).toNat / 10000 % 10 = 1 ∧ (22103 : Word).toNat / 100 % 10 = 1 := by decide
theorem witness_HighDigitsAreIgnoredOrFault :
    0 ≤ (203 : Word).toInt ∧ (700203 : Word).toInt = (203 : Word).toInt + 100000 * (7 : Nat) ∧
    100000 ≤ (100000 : Word).toInt ∧ (99999 : Word).toInt < 100000 := by decide
/-- A bad unused digit; two legal words and two refused ones that differ in unused digits only. -/
theorem witness_UnusedModeDigitsAreCheckedAndNotRead :
    (0 ≤ (30003 : Word).toInt ∧ (30003 : Word).toNat % 100 ∈ [1, 2, 3, 4, 5, 6, 7, 8, 9, 99] ∧
      2 < (30003 : Word).toNat / 10000 % 10) ∧
    ((203 : Word).toNat % 100 = opCode .inp ∧ (12203 : Word).toNat % 100 = opCode .inp ∧
      decodeWord .ignore 203 = .ok ⟨.inp, .relative, .position, .position⟩ ∧
      decodeWord .ignore 12203 = .ok ⟨.inp, .relative, .relative, .immediate⟩ ∧
      decodeWord .ignore 103 = .error ⟨.immediateWriteTarget, 1, 103⟩ ∧
      decodeWord .ignore 12103 = .error ⟨.immediateWriteTarget, 1, 12103⟩) ∧
    (∀ k, 1 ≤ k → k < opLen .inp → digit (203 : Word).toNat (k + 1) = digit (12203 : Word).toNat (k + 1)) ∧
    (∀ k, opLen .inp ≤ k → k ≤ 3 → digit (203 : Word).toNat (k + 1) ≤ 2 ∧ digit (12203 : Word).toNat (k + 1) ≤ 2) ∧
    (∀ k, 1 ≤ k → k < opLen .out →
      decodedMode ⟨.out, .relative, .position, .position⟩ k = decodedMode ⟨.out, .relative, .immediate, .relative⟩ k) := by
  refine ⟨by decide, by decide, fun k h1 h2 => ?_, fun k h1 h2 => ?_, fun k h1 h2 => ?_⟩
  · obtain rfl : k = 1 := by simp only [opLen] at h2; omega
    decide
  · simp only [opLen] at h1
    obtain rfl | rfl : k = 2 ∨ k = 3 := by omega
    all_goals decide
  · obtain rfl : k = 1 := by simp only [opLen] at h2; omega
    rfl
theorem witness_CanonicalMemoriesThatReadAlikeAreEqual :
    Memory.wf [(3, 5#64), (9, 1#64)] ∧ ∀ a, Memory.read [(3, 5#64), (9, 1#64)] a = Memory.read [(3, 5#64), (9, 1#64)] a :=
  ⟨by decide, fun _ => rfl⟩

/-- A program's first step, for the witnesses below. -/
theorem witness_step (program : List Word) : step (loaded program) = .next (stepState (loaded program)) :=
  step_stepState _

theorem witness_StepWritesAtMostOneWord :
    step (loaded [1101, 2, 3, 5]) = .next (stepState (loaded [1101, 2, 3, 5])) ∧
    (stepState (loaded [1101, 2, 3, 5])).read 5 ≠ (loaded [1101, 2, 3, 5]).read 5 := ⟨witness_step _, by decide⟩
/-- The same word, and one changed by an Input. -/
theorem witness_MemoryChangesOnlyAtTheWriteTarget :
    (stepState (issue (.feed 1101) (loaded [3, 0, 99])).1).read 0 ≠ (issue (.feed 1101) (loaded [3, 0, 99])).1.read 0 := by
  decide
theorem witness_StepRunsTheDecodedInstruction :
    (loaded [1105, 1, 9]).status.terminal = false ∧ 0 ≤ (loaded [1105, 1, 9]).pc.toInt ∧
    (loaded [1105, 1, 9]).pc.toInt + ([1105, 1, 9] : List Word).length ≤ (loaded [1105, 1, 9]).config.memDepth ∧
    (∀ k, k < 3 → (loaded [1105, 1, 9]).read ((loaded [1105, 1, 9]).pc.toInt.toNat + k) = [1105, 1, 9].getD k 0) ∧
    decode (loaded [1105, 1, 9]).config.highDigits [1105, 1, 9] = .ok (.jt ⟨.immediate, 1⟩ ⟨.immediate, 9⟩, []) := by
  decide
/-- Halted and Faulted, a move that leaves each, and a Halted block with a STEP in progress. -/
theorem witness_TerminalStatusIsLeftOnlyByLoadRestoreReset :
    (stepState (loaded [99])).status.terminal = true ∧ (stepState (loaded [3000])).status.terminal = true ∧
    (stepState (loaded [99])).activity = .idle ∧ ([99] : List Word).length ≤ (loaded [99]).config.memDepth ∧
    (applyMove (.command (.load [99])) (stepState (loaded [3000]))).status ≠ (stepState (loaded [3000])).status ∧
    (applyMove .reset (stepState (loaded [99]))).status ≠ (stepState (loaded [99])).status ∧
    (applyMove .resetInStep (issue .step (stepState (loaded [99]))).1).status = .running := by decide
/-- pc at -1 and at MEM_DEPTH. -/
theorem witness_FetchAtAnInvalidPcFaults :
    (loadedIn 4 []).config.legal ∧ (loadedIn 4 []).status.terminal = false ∧
    ({ loadedIn 4 [] with pc := -1 } : State).pc.toInt < 0 ∧
    ((loadedIn 4 []).config.memDepth : Int) ≤ ({ loadedIn 4 [] with pc := 4 } : State).pc.toInt := by decide
theorem witness_IllegalWordFaultsAsDecoded :
    (loadedIn 1 [399]).status.terminal = false ∧ 0 ≤ (loadedIn 1 [399]).pc.toInt ∧
    (loadedIn 1 [399]).pc.toInt < (loadedIn 1 [399]).config.memDepth ∧
    decodeWord (loadedIn 1 [399]).config.highDigits ((loadedIn 1 [399]).read (loadedIn 1 [399]).pc.toInt.toNat) =
      .error ⟨.badModeDigit, 1, 399⟩ := by decide
theorem witness_OperandWordOutsideTheArrayFaults :
    (loadedIn 3 [1101, 1, 1]).config.legal ∧ (loadedIn 3 [1101, 1, 1]).status.terminal = false ∧
    decodeWord .ignore ((loadedIn 3 [1101, 1, 1]).read 0) = .ok ⟨.add, .immediate, .immediate, .position⟩ ∧
    ((loadedIn 3 [1101, 1, 1]).config.memDepth : Int) < (loadedIn 3 [1101, 1, 1]).pc.toInt + opLen .add := by decide
/-- A faulting step begun idle, and one begun in a RUN. -/
theorem witness_FaultChangesOnlyStatusAndRecord :
    step (loaded [3000]) = .next (stepState (loaded [3000])) ∧ (loaded [3000]).status ≠ .faulted ∧
    (stepState (loaded [3000])).status = .faulted ∧ (loaded [3000]).activity = .idle ∧
    (tick { loaded [3000] with activity := .run true true }).1.status = .faulted :=
  ⟨witness_step _, by decide⟩
/-- A state per cause and, for the address faults, per source of the address: pc, a parameter, an operand word. -/
theorem witness_FaultRecordNamesTheOffence :
    (loaded []).config.legal ∧ (loaded []).status.terminal = false ∧
    record (stepState (loaded [3000])) = (.invalidOpcode, 0, 3000) ∧
    record (stepState (loaded [30001])) = (.badModeDigit, 3, 30001) ∧
    record (stepState (loaded [103])) = (.immediateWriteTarget, 1, 103) ∧
    record (stepState { loaded [] with pc := -1 }) = (.negativeAddress, 0, -1) ∧
    record (stepState (loaded [1, 0, -2, 5])) = (.negativeAddress, 2, -2) ∧
    record (stepState (stepState (loadedIn 4 [1105, 1, 4]))) = (.addressOutOfRange, 0, 4) ∧
    record (stepState (loadedIn 8 [1101, 1, 1, 8])) = (.addressOutOfRange, 3, 8) ∧
    record (stepState (loadedIn 3 [1101, 1, 1])) = (.addressOutOfRange, 3, 3) ∧
    record (stepState (loaded [1102, -1, -9223372036854775808, 5])) = (.arithmeticOverflow, 3, 1102) := by decide
/-- The three places pc can go: kept (Halt, a suspended Input), a jump taken, and the last word of the array passed. -/
theorem witness_PcIsKeptJumpsOrAdvancesExactly :
    (loadedIn 3 [1105, 1, -3]).config.legal ∧
    fetchInstr (loadedIn 3 [1105, 1, -3]).begin = .ok (.jt ⟨.immediate, 1⟩ ⟨.immediate, -3⟩) ∧
    (stepState (loadedIn 3 [1105, 1, -3])).pc = -3 ∧ (stepState (loadedIn 3 [1105, 0, -3])).pc = 3 ∧
    (stepState (loaded [99])).status = .halted ∧ (stepState (loaded [3, 5])).status = .awaitingInput := by decide
theorem witness_SuspensionPointsAreExactlyTwo :
    (loaded []).status.terminal = false ∧ (stepState (loaded [99])).status = .halted ∧
    (stepState (loaded [3, 5])).status = .awaitingInput ∧ (stepState (loaded [104, 5])).status = .producedOutput ∧
    (applyMove .tick { loaded [104, 5] with activity := .step }).status = .producedOutput ∧
    (applyMove .tick { loaded [104, 5] with activity := .run true true }).status = .producedOutput := by decide
theorem witness_OnlyAdjustRelativeBaseChangesRb :
    step (loaded [109, -5]) = .next (stepState (loaded [109, -5])) ∧
    (stepState (loaded [109, -5])).rb ≠ (loaded [109, -5]).rb := ⟨witness_step _, by decide⟩
/-- A value from the feed register, and one from the source. -/
theorem witness_OnlyInputTakesAValue :
    (stepState { loaded [3, 5] with feed := some 7 }).feed ≠ some 7 ∧
    (stepState { loaded [3, 5] with source := .connected [some (-4)] 0 }).source ≠ .connected [some (-4)] 0 := by decide
theorem witness_OnlyOutputEmits :
    step (loaded [104, -9]) = .next (stepState (loaded [104, -9])) ∧
    (stepState (loaded [104, -9])).out ≠ (loaded [104, -9]).out := ⟨witness_step _, by decide⟩
/-- Two states that differ in the latch, the record and the sink's past, with an emission and with a fault. -/
theorem witness_StepReadsOnlyMemoryPcRbAndInputs :
    let s := loaded [104, -9]
    let s' : State := { s with out := some 3, sink := [3], faultValue := 8, status := .producedOutput }
    s ≠ s' ∧ s.status.terminal = false ∧ s'.status.terminal = false ∧ s.pc = s'.pc ∧ s.rb = s'.rb ∧ s.mem = s'.mem ∧
    s.feed = s'.feed ∧ s.source = s'.source ∧ s.config = s'.config ∧ s.activity = s'.activity ∧
    step s = .next (stepState s) ∧ (stepState s').sink = [3, -9] ∧ (stepState s').out = some (-9) ∧
    record (stepState { loaded [3000] with out := some 3, faultValue := 8 }) = (.invalidOpcode, 0, 3000) := by
  refine ⟨by decide, rfl, rfl, rfl, rfl, rfl, rfl, rfl, rfl, rfl, witness_step _, by decide⟩
/-- Per mode, the addresses -1, 0, MEM_DEPTH - 1, MEM_DEPTH. -/
theorem witness_ResolvedAddressPerMode :
    let s : State := { loadedIn 8 [] with rb := 5, pc := 4 }
    resolve s 1 ⟨.position, -1⟩ = .error ⟨.negativeAddress, 1, -1⟩ ∧ resolve s 1 ⟨.position, 0⟩ = .ok 0 ∧
    resolve s 3 ⟨.immediate, 99⟩ = .ok 7 ∧ resolve { s with pc := 5 } 3 ⟨.immediate, 99⟩ = .error ⟨.addressOutOfRange, 3, 8⟩ ∧
    resolve s 2 ⟨.relative, -6⟩ = .error ⟨.negativeAddress, 2, -1⟩ ∧ resolve s 2 ⟨.relative, 2⟩ = .ok 7 ∧
    resolve s 2 ⟨.relative, 3⟩ = .error ⟨.addressOutOfRange, 2, 8⟩ := by decide
/-- One parameter of each mode, in range. -/
theorem witness_ReadParameterPerMode :
    let s : State := { loadedIn 4 [21001, 3, 50, -1] with rb := 1 }
    fetchInstr s = .ok (.add ⟨.position, 3⟩ ⟨.immediate, 50⟩ ⟨.relative, -1⟩) ∧ readParam s 1 ⟨.position, 3⟩ = .ok (-1) ∧
    readParam s 2 ⟨.immediate, 50⟩ = .ok 50 ∧ readParam s 3 ⟨.relative, -1⟩ = .ok 21001 := by decide
theorem witness_ParameterFaultsComeInAscendingOrder :
    let s := loaded [1, 0, 0, 0]
    resolve s 1 ⟨.position, -1⟩ = .error ⟨.negativeAddress, 1, -1⟩ ∧ readParam s 1 ⟨.position, 0⟩ = .ok 1 ∧
    resolve s 2 ⟨.position, -2⟩ = .error ⟨.negativeAddress, 2, -2⟩ ∧ readParam s 2 ⟨.position, 0⟩ = .ok 1 ∧
    resolve s 3 ⟨.position, -3⟩ = .error ⟨.negativeAddress, 3, -3⟩ := by decide

/-- The operands of an ALU instruction, at the edges of the Words: V-ALU-5 and V-ALU-9. -/
theorem witness_AddStoresTheExactSum :
    let s := loaded [1101, -9223372036854775808, 9223372036854775807, 5]
    s.mem.wf ∧ readParam s 1 ⟨.immediate, -9223372036854775808⟩ = .ok (-9223372036854775808) ∧
    readParam s 2 ⟨.immediate, 9223372036854775807⟩ = .ok 9223372036854775807 ∧ resolve s 3 ⟨.position, 5⟩ = .ok 5 ∧
    minWord ≤ (-9223372036854775808 : Word).toInt + (9223372036854775807 : Word).toInt ∧
    (-9223372036854775808 : Word).toInt + (9223372036854775807 : Word).toInt ≤ maxWord := by decide
theorem witness_MultiplyStoresTheExactProduct :
    let s := loaded [1102, -4611686018427387904, 2, 5]
    s.mem.wf ∧ readParam s 1 ⟨.immediate, 0⟩ = .ok (-4611686018427387904) ∧ readParam s 2 ⟨.immediate, 0⟩ = .ok 2 ∧
    resolve s 3 ⟨.position, 5⟩ = .ok 5 ∧ minWord ≤ (-4611686018427387904 : Word).toInt * (2 : Word).toInt ∧
    (-4611686018427387904 : Word).toInt * (2 : Word).toInt ≤ maxWord := by decide
theorem witness_CompareStoresOneOrZero :
    let s := loaded [1107, -1, 0, 5]
    s.mem.wf ∧ readParam s 1 ⟨.immediate, -1⟩ = .ok (-1) ∧ readParam s 2 ⟨.immediate, 0⟩ = .ok 0 ∧
    resolve s 3 ⟨.position, 5⟩ = .ok 5 := by decide
/-- V-ALU-3, V-ALU-8 and V-ARB-3. -/
theorem witness_OverflowFaultsExactlyWhenNoWord :
    let s : State := { loaded [1101, 9223372036854775807, 1, 5] with rb := 9223372036854775807 }
    readParam s 1 ⟨.immediate, 0⟩ = .ok 9223372036854775807 ∧ readParam s 2 ⟨.immediate, 0⟩ = .ok 1 ∧
    resolve s 3 ⟨.position, 5⟩ = .ok 5 ∧
    ¬ (minWord ≤ (9223372036854775807 : Word).toInt + (1 : Word).toInt ∧
      (9223372036854775807 : Word).toInt + (1 : Word).toInt ≤ maxWord) ∧
    ¬ (minWord ≤ (2147483648 : Word).toInt * (4294967296 : Word).toInt ∧
      (2147483648 : Word).toInt * (4294967296 : Word).toInt ≤ maxWord) ∧
    ¬ (minWord ≤ s.rb.toInt + (9223372036854775807 : Word).toInt ∧
      s.rb.toInt + (9223372036854775807 : Word).toInt ≤ maxWord) ∧
    s.faultCause ≠ .arithmeticOverflow ∧ (stepState s).faultCause = .arithmeticOverflow := by decide

theorem witness_InputStoresTheFeedRegisterFirst :
    let s : State := { loaded [203, 0] with feed := some 7, rb := 5 }
    s.mem.wf ∧ resolve s 1 ⟨.relative, 0⟩ = .ok 5 ∧ s.feed = some 7 := by decide
/-- A listed answer; and, given that the free draw is a value, the free draw. -/
theorem witness_InputStoresTheSourcesAnswer :
    (let s : State := { loaded [3, 5] with source := .connected [some (-4), none] 0 }
     s.mem.wf ∧ resolve s 1 ⟨.position, 5⟩ = .ok 5 ∧ s.feed = none ∧
      ∃ rest n, s.source = .connected (some (-4) :: rest) n ∧ InputSource.connected [none] 0 = .connected rest n) ∧
    (∀ v, Config.inputAnswer 0 = some v → ∃ n, InputSource.connected [] 0 = .connected [] n ∧
      Config.inputAnswer n = some v ∧ InputSource.connected [] 1 = .connected [] (n + 1)) :=
  ⟨⟨by decide, by decide, rfl, [none], 0, rfl, rfl⟩, fun _ h => ⟨0, rfl, h, rfl⟩⟩
/-- No source; a source that answers "not yet available". -/
theorem witness_InputWithoutAValueOnlySuspends :
    resolve (loaded [3, 5]) 1 ⟨.position, 5⟩ = .ok 5 ∧ (loaded [3, 5]).feed = none ∧ (loaded [3, 5]).source = .absent ∧
    (stepState { loaded [3, 5] with source := .connected [none] 0 }).status = .awaitingInput := by decide
/-- A faulting address; a poll that returns a value. -/
theorem witness_FaultingInputTakesNoValue :
    let s : State := { loaded [3, 5] with feed := some 7 }
    s.mem.wf ∧ (∃ t, exec (.inp ⟨.position, -1⟩) s = .next t) ∧
    resolve s 1 ⟨.position, -1⟩ = .error ⟨.negativeAddress, 1, -1⟩ ∧ resolve s 1 ⟨.position, 5⟩ = .ok 5 ∧
    (pollInput s).1 = some 7 := ⟨by decide, exec_answers _ _, by decide, by decide, rfl⟩
theorem witness_SuspendedInputResumesWithTheFedValue :
    let s := loaded [3, 5, 99]
    s.mem.wf ∧ s.status.terminal = false ∧ s.activity = .idle ∧ fetchInstr s.begin = .ok (.inp ⟨.position, 5⟩) ∧
    resolve s.begin 1 ⟨.position, 5⟩ = .ok 5 ∧ s.feed = none ∧ s.source = .absent := by decide
/-- A STEP (bare, and in progress), a RUN that stops on output, a RUN that does not. -/
theorem witness_OutputLatchesEmitsAndAdvances :
    readParam (loaded [104, -9]) 1 ⟨.immediate, -9⟩ = .ok (-9) ∧ (loaded [104, -9]).activity = .idle ∧
    (stepState (loaded [104, -9])).status = .producedOutput ∧
    (stepState { loaded [104, -9] with activity := .step }).status = .producedOutput ∧
    (stepState { loaded [104, -9] with activity := .run true true }).status = .producedOutput ∧
    (stepState { loaded [104, -9] with activity := .run true false }).status = .running := by decide
/-- V-CTL-5. -/
theorem witness_JumpIfTrueSelectsThePc :
    let s := loaded [5, 3, 4, 7, 12]
    readParam s 1 ⟨.position, 3⟩ = .ok 7 ∧ readParam s 2 ⟨.position, 4⟩ = .ok 12 := by decide
/-- V-CTL-3. -/
theorem witness_JumpIfFalseSelectsThePc :
    let s := loaded [1106, 0, 9]
    readParam s 1 ⟨.immediate, 0⟩ = .ok 0 ∧ readParam s 2 ⟨.immediate, 9⟩ = .ok 9 := by decide
/-- V-CTL-6; p1 and p2 below 0, and at MEM_DEPTH. -/
theorem witness_JumpResolvesBothParameters :
    let s := loadedIn 8 [105, 0, -1]
    paramAddr s 1 ⟨.position, -1⟩ < 0 ∧ (s.config.memDepth : Int) ≤ paramAddr s 1 ⟨.position, 8⟩ ∧
    readParam s 1 ⟨.immediate, 0⟩ = .ok 0 ∧ paramAddr s 2 ⟨.position, -1⟩ < 0 ∧
    (s.config.memDepth : Int) ≤ paramAddr s 2 ⟨.position, 8⟩ := by decide
/-- A sum at the greatest Word, and V-ARB-3. -/
theorem witness_AdjustRelativeBaseAddsExactly :
    let s : State := { loaded [109, 1, 99] with rb := 9223372036854775806 }
    readParam s 1 ⟨.immediate, 1⟩ = .ok 1 ∧ s.rb.toInt + (1 : Word).toInt ≤ maxWord ∧
    minWord ≤ s.rb.toInt + (1 : Word).toInt ∧
    ¬ (9223372036854775807 : Word).toInt + (1 : Word).toInt ≤ maxWord := by decide
/-- V-L1-4: k = 50, d = -3, and the edges of the array. -/
theorem witness_RelativeParameterResolvesAfterAdjust :
    (loaded [109, 50]).rb = 0 ∧ readParam (loaded [109, 50]) 1 ⟨.immediate, 50⟩ = .ok 50 ∧
    (stepState (loaded [109, 50])).rb = 50 ∧ 0 ≤ (50 : Word).toInt + (-50 : Word).toInt ∧
    (50 : Word).toInt + (-3 : Word).toInt < (loadedIn 48 []).config.memDepth := by decide

theorem witness_StepKeepsTheInvariant :
    (loaded [1101, 2, 3, 5]).Inv ∧ step (loaded [1101, 2, 3, 5]) = .next (stepState (loaded [1101, 2, 3, 5])) :=
  ⟨by decide, witness_step _⟩
/-- A legal state with a RUN in progress that goes on, one with a STEP, and a legal Faulted one. -/
theorem witness_EveryMoveKeepsTheInvariant :
    State.Inv { loaded [109, 5] with activity := .run true true } ∧
    (applyMove .tick { loaded [109, 5] with activity := .run true true }).activity ≠ .idle ∧
    State.Inv { loaded [104, 5] with activity := .step } ∧
    (stepState (loaded [1, -1])).Inv ∧ (stepState (loaded [1, -1])).status = .faulted := by decide
/-- A program that just fits, one that just does not. -/
theorem witness_LoadBuildsAFreshMachine :
    (loadedIn 2 [99]).activity = .idle ∧ ([104, 7] : List Word).length ≤ (loadedIn 2 [99]).config.memDepth ∧
    (loadedIn 2 [99]).config.memDepth < ([104, 7, 99] : List Word).length := by decide
/-- The addresses -1, 0, MEM_DEPTH - 1, MEM_DEPTH. -/
theorem witness_PeekAndPokeReachOneWord :
    (loadedIn 16 [99]).activity = .idle ∧ (loadedIn 16 [99]).mem.wf ∧ (loadedIn 16 [99]).config.memDepth = 16 ∧
    ((issue (.readMemory (-1)) (loadedIn 16 [99])).2.map Response.code) = some .hostNegativeAddress ∧
    ((issue (.readMemory 0) (loadedIn 16 [99])).2.map Response.value) = some (some (.word 99)) ∧
    ((issue (.writeMemory 15 4) (loadedIn 16 [99])).1.read 15) = 4 ∧
    ((issue (.writeMemory 16 4) (loadedIn 16 [99])).2.map Response.code) = some .hostAddressOutOfRange := by decide
theorem witness_RestoreReturnsToTheSnapshot :
    let s : State := { loaded [3, 5, 99] with pc := 2, rb := 200 }
    let u := (issue (.writeMemory 1 6) (stepState (loaded [99]))).1
    s.Inv ∧ s.activity = .idle ∧ u.activity = .idle ∧ u.config = s.config ∧ u.mem ≠ s.mem := by decide
/-- V-HST-12, from a Faulted state, with a Snapshot whose cells are not in canonical form. -/
theorem witness_RestoreTakesAHostBuiltSnapshot :
    (stepState (loaded [3000])).activity = .idle ∧
    (issue (.restore ⟨-7, 0, [(9, 1), (2, 0), (1, 5)]⟩) (stepState (loaded [3000]))).1.mem = [(1, 5), (9, 1)] := by decide
theorem witness_FeedAndTakeOutput :
    (loaded []).activity = .idle ∧ (loaded []).feed = none ∧ (loaded []).out = none ∧
    (issue (.feed 1) (loaded [])).1.feed = some 1 ∧ (stepState (loaded [104, -9])).out = some (-9) ∧
    (stepState (loaded [104, -9])).activity = .idle := by decide
/-- An Output, and a Halted block. -/
theorem witness_StepCommandRunsOneStep :
    (loaded [104, -9]).activity = .idle ∧ (loaded [104, -9]).status.terminal = false ∧
    ((stepCommand (loaded [104, -9])).2.map Response.value) = some (some (.word (-9))) ∧
    (stepState (loaded [99])).activity = .idle ∧ (stepState (loaded [99])).status.terminal = true := by decide
/-- A turn that goes on, and one that stops, for each of the codes. -/
theorem witness_RunStepsUntilItStops :
    let run := fun (si : Bool) (program : List Word) => { loaded program with activity := .run si true }
    (run true [99]).status.terminal = false ∧ (tick (run true [109, 1])).2 = none ∧
    ((tick (run true [99])).2.map Response.code) = some .ok ∧
    ((tick (run false [3, 5])).2.map Response.code) = some .inputUnderflow ∧
    ((tick (run true [3, 5])).2.map Response.code) = some .ok := by decide
theorem witness_RunWithoutStopOnOutputGoesOn :
    let s : State := { loaded [104, -9, 99] with activity := .run true false }
    s.activity = .run true false ∧ s.status.terminal = false ∧ fetchInstr s.begin = .ok (.out ⟨.immediate, -9⟩) ∧
    readParam s.begin 1 ⟨.immediate, -9⟩ = .ok (-9) ∧ (tick s).1.status = .running := by decide
/-- An idle block; a block with a RUN in progress; a Halted one with a RUN in progress. -/
theorem witness_BusyCoreAcceptsNoCommand :
    (loaded [99]).activity = .idle ∧ (issue (.run true false) (loaded [99])).1.activity = .run true false ∧
    (issue .step (loaded [99])).1.activity ≠ .idle ∧
    (issue (.run true false) (stepState (loaded [99]))).1.activity = .run true false ∧
    (issue (.run true false) (stepState (loaded [99]))).1.status.terminal = true := by decide
/-- An idle block, in which a STEP is issued; one with a RUN in progress. -/
theorem witness_ResetGivesTheResetValues :
    (stepState (loaded [109, 5])).activity = .idle ∧ (issue .step (loaded [104, -9])).1.activity = .step ∧
    resetPort { stepState (loaded [109, 5]) with activity := .run true true } = State.reset := by decide
theorem witness_StepAfterResetFaultsInvalidOpcode :
    (loadedIn 1 [99]).config.legal ∧ (loaded []).config.legal := by decide
/-- An idle block; a STEP of an Output, whose value the sink already has; one of an Input, whose value the source has
handed over. -/
theorem witness_ResetInsideAStepLeavesOnlySourceAndSink :
    (loaded [104, -9]).activity = .idle ∧ (issue .step (loaded [104, -9])).1.activity ≠ .idle ∧
    applyMove .resetInStep (issue .step (loaded [104, -9])).1 = { State.reset with sink := [-9] } ∧
    (resetInStep { loaded [3, 5] with source := .connected [some 7, some 8] 0, activity := .step }).source =
      .connected [some 8] 0 := by decide

end Sys2Proof.Tests
end

section
/-! PROOFS. The block's parameters (spec/00_scope.md R6, R7; spec/30_encoding.md R81): what each operation of the host
port does to them, and so every move. The step's own part is `stepState_config`. -/

namespace Sys2Proof.Machine

/-! ## What a command does -/

@[simp] theorem loadProgram_config (program : List Word) (s : State) : (loadProgram program s).1.config = s.config := by
  unfold loadProgram
  split_ifs
  · rfl
  · exact freshState_config _ _ _ s

@[simp] theorem poke_config (a : Int) (v : Word) (s : State) : (poke a v s).1.config = s.config := by
  unfold poke
  cases hostAddr s.config a with
  | error code => rfl
  | ok n => exact State.write_config s n v

@[simp] theorem restoreSnapshot_config (image : Snapshot) (s : State) : (restoreSnapshot image s).config = s.config :=
  freshState_config _ _ _ s

@[simp] theorem feedInput_config (v : Word) (s : State) : (feedInput v s).1.config = s.config := by
  unfold feedInput
  cases s.feed <;> rfl

@[simp] theorem accept_config (c : Command) (s : State) : (accept c s).1.config = s.config := by
  cases c with
  | load program => exact loadProgram_config program s
  | step => exact startCommand_config .step s
  | run stopOnInput stopOnOutput => exact startCommand_config (.run stopOnInput stopOnOutput) s
  | readMemory a => rfl
  | writeMemory a v => exact poke_config a v s
  | snapshot => rfl
  | restore image => exact restoreSnapshot_config image s
  | feed v => exact feedInput_config v s
  | takeOutput => rfl

/-! ## What a move does -/

@[simp] theorem issue_config (c : Command) (s : State) : (issue c s).1.config = s.config := by
  by_cases h : s.activity = .idle
  · rw [issue_idle c s h, accept_config]
  · rw [issue_busy c s h]

@[simp] theorem tick_config (s : State) : (tick s).1.config = s.config := by
  cases h : s.activity with
  | idle => simp [tick, h]
  | step => simp [tick, h]
  | run stopOnInput stopOnOutput =>
    rw [tick_run s stopOnInput stopOnOutput h]
    split_ifs <;> simp

@[simp] theorem resetInStep_config (s : State) : (resetInStep s).config = s.config := by
  by_cases h : s.activity = .idle
  · simp [resetInStep, h]
  · rw [resetInStep_busy s h, resetPort_config, stepState_config]

/-- Settles O48: each kind of move by its own frame lemma, the steps of a turn by `stepState_config`. -/
theorem parametersNeverChange : Obligations.ParametersNeverChange := by
  intro m s
  cases m with
  | command c => exact issue_config c s
  | tick => exact tick_config s
  | reset => exact resetPort_config s
  | resetInStep => exact resetInStep_config s
  | connect source => rfl

end Sys2Proof.Machine
end

section
/-! PROOFS. The state of one block (spec/10_state.md): the legal states are kept by a step (R20 to R28), where a step
leaves pc (R21), and what changes rb (R22). Each is read off `Effect`, what an instruction can do. -/

namespace Sys2Proof.Machine

/-! ## The decoder's faults -/

/-- The causes of an illegal instruction word (spec/30_encoding.md R84), each with what it says of the word. -/
theorem decodeWord_error (hd : HighDigits) (w : Word) (f : FaultInfo) (h : decodeWord hd w = .error f) :
    ((w.toInt < 0 ∨ highDigitsRefused hd w = true ∨ opOfCode (w.toNat % 100) = none) ∧
      f = ⟨.invalidOpcode, 0, w.toInt⟩) ∨
    (∃ k, 1 ≤ k ∧ k ≤ 3 ∧ 2 < digit w.toNat (k + 1) ∧ f = ⟨.badModeDigit, k, w.toInt⟩) ∨
    (∃ op, opOfCode (w.toNat % 100) = some op ∧
      ∃ k ∈ writeTargets op, digit w.toNat (k + 1) = 1 ∧ f = ⟨.immediateWriteTarget, k, w.toInt⟩) := by
  have bad (k : Nat) (h1 : 1 ≤ k ∧ k ≤ 3) (h : decodeMode w k = .error f) :
      ∃ k, 1 ≤ k ∧ k ≤ 3 ∧ 2 < digit w.toNat (k + 1) ∧ f = ⟨.badModeDigit, k, w.toInt⟩ :=
    ⟨k, h1.1, h1.2, (decodeMode_error w k f).1 h⟩
  unfold decodeWord at h
  split_ifs at h with hneg hhigh
  · exact .inl ⟨.inl hneg, (Except.error.inj h).symm⟩
  · exact .inl ⟨.inr (.inl hhigh), (Except.error.inj h).symm⟩
  · rcases hop : opOfCode (w.toNat % 100) with _ | op
    · simp only [hop, Except.error.injEq] at h
      exact .inl ⟨.inr (.inr rfl), h.symm⟩
    · rcases h1 : decodeMode w 1 with g | m1
      · simp only [hop, h1, bind, Except.bind, Except.error.injEq] at h
        exact .inr (.inl (bad 1 (by omega) (h ▸ h1)))
      rcases h2 : decodeMode w 2 with g | m2
      · simp only [hop, h1, h2, bind, Except.bind, Except.error.injEq] at h
        exact .inr (.inl (bad 2 (by omega) (h ▸ h2)))
      rcases h3 : decodeMode w 3 with g | m3
      · simp only [hop, h1, h2, h3, bind, Except.bind, Except.error.injEq] at h
        exact .inr (.inl (bad 3 (by omega) (h ▸ h3)))
      simp only [hop, h1, h2, h3, bind, Except.bind] at h
      obtain ⟨k, hk, hi, hf⟩ := (checkWriteTargets_error _ _ _).1 h
      refine .inr (.inr ⟨op, rfl, k, hk, ?_, hf⟩)
      rcases writeTargets_cases op with ht | ht | ht <;>
        simp only [ht, List.not_mem_nil, List.mem_singleton] at hk <;> subst hk
      · simpa [modeDigit, show m1 = .immediate from hi] using (decodeMode_ok w 1 m1).1 h1
      · simpa [modeDigit, show m3 = .immediate from hi] using (decodeMode_ok w 3 m3).1 h3

/-! ## The record a fault leaves -/

/-- Fault entry from s writes a record that the legal states allow: a cause, and the rest as R250 fits it. -/
def FaultFits (s : State) (f : FaultInfo) : Prop := f.cause ≠ .none ∧ (raiseFault f s).recordOk = true

/-- An address of W+1 bits that fails the check (spec/40_engine.md R112) is recorded on its own side of the array. -/
theorem checkAddr_error_fits (s : State) (a : Int) (k : Nat) (f : FaultInfo)
    (ha : -18446744073709551616 ≤ a ∧ a < 18446744073709551616) (h : checkAddr s.config a k = .error f) :
    FaultFits s f := by
  have he := faultValue_exact a ha
  rcases (checkAddr_error _ _ _ _).1 h with ⟨hneg, rfl⟩ | ⟨-, hbig, rfl⟩
  · exact ⟨by simp, by simpa [State.recordOk, he] using hneg⟩
  · exact ⟨by simp, by simpa [State.recordOk, he] using hbig⟩

/-- What a parameter names fits the fault value, W+1 bits (R26). -/
theorem paramAddr_bounds (s : State) (k : Nat) (p : Param) (hk : k ≤ 3) :
    -18446744073709551616 ≤ paramAddr s k p ∧ paramAddr s k p < 18446744073709551616 := by
  have hpc := Word.toInt_bounds s.pc
  have hrb := Word.toInt_bounds s.rb
  have hraw := Word.toInt_bounds p.raw
  simp only [minWord, maxWord] at hpc hrb hraw
  unfold paramAddr
  cases p.mode with
  | position => dsimp only; omega
  | immediate => dsimp only; omega
  | relative => dsimp only; omega

theorem resolve_error_fits (s : State) (k : Nat) (p : Param) (f : FaultInfo) (hk : k ≤ 3)
    (h : resolve s k p = .error f) : FaultFits s f :=
  checkAddr_error_fits s _ k f (paramAddr_bounds s k p hk) h

theorem checkResult_error_fits (s : State) (k : Nat) (r : Int) (f : FaultInfo) (hk : k = 1 ∨ k = 3)
    (h : checkResult s k r = .error f) : FaultFits s f := by
  obtain ⟨-, rfl⟩ := (checkResult_error _ _ _ _).1 h
  rcases hk with rfl | rfl <;> exact ⟨by simp, by simp [State.recordOk]⟩

theorem decodeWord_error_fits (s : State) (hd : HighDigits) (w : Word) (f : FaultInfo)
    (h : decodeWord hd w = .error f) : FaultFits s f := by
  rcases decodeWord_error hd w f h with ⟨-, rfl⟩ | ⟨k, h1, h3, -, rfl⟩ | ⟨op, -, k, hk, -, rfl⟩
  · exact ⟨by simp, by simp [State.recordOk]⟩
  · have hk : k = 1 ∨ k = 2 ∨ k = 3 := by omega
    rcases hk with rfl | rfl | rfl <;> exact ⟨by simp, by simp [State.recordOk]⟩
  · have hk : k = 1 ∨ k = 3 := by rcases writeTargets_cases op with ht | ht | ht <;> simp_all
    rcases hk with rfl | rfl <;> exact ⟨by simp, by simp [State.recordOk]⟩

/-- Every fault on the way to an instruction (steps 2 to 4 of R117) fits its record. -/
theorem fetchInstr_error_fits (s : State) (f : FaultInfo) (h : fetchInstr s = .error f) : FaultFits s f := by
  have hpc := Word.toInt_bounds s.pc
  simp only [minWord, maxWord] at hpc
  rcases fetchInstr_error s f h with hneg | hbig | ⟨-, -, hd⟩ | ⟨-, -, d, -, j, -, hj, he, hf⟩
  · exact checkAddr_error_fits s _ 0 f (by omega) ((checkAddr_error _ _ _ _).2 (.inl hneg))
  · exact checkAddr_error_fits s _ 0 f (by omega) ((checkAddr_error _ _ _ _).2 (.inr hbig))
  · exact decodeWord_error_fits s _ _ f hd
  · have hl := (opLen_pos d.op).2
    exact checkAddr_error_fits s s.config.memDepth j f (by omega)
      ((checkAddr_error _ _ _ _).2 (.inr ⟨by omega, le_rfl, hf⟩))

/-! ## The legal states under each state operation -/

theorem raiseFault_inv (f : FaultInfo) (s : State) (h : s.Inv) (hf : FaultFits s f) : (raiseFault f s).Inv := by
  obtain ⟨hc, hm, hb, -, -⟩ := h
  exact ⟨hc, hm, hb, by simp [hf.1], hf.2⟩

/-- A change of status among those that are no fault. -/
theorem State.inv_withStatus (s : State) (st : Status) (h : s.Inv) (hs : s.status ≠ .faulted) (hst : st ≠ .faulted) :
    State.Inv { s with status := st } := by
  obtain ⟨hc, hm, hb, hf, hr⟩ := h
  exact ⟨hc, hm, hb, ⟨fun _ => hst, fun _ => hf.2 hs⟩, hr⟩

theorem State.inv_advance (s : State) (n : Nat) (h : s.Inv) : (s.advance n).Inv := h

theorem emit_inv (v : Word) (s : State) (h : s.Inv) : (emit v s).Inv := h

theorem pollInput_inv (s : State) (h : s.Inv) : (pollInput s).2.Inv := by
  rw [pollInput_frame s]
  exact h

@[simp] theorem pollInput_pc (s : State) : (pollInput s).2.pc = s.pc := by rw [pollInput_frame s]
@[simp] theorem pollInput_rb (s : State) : (pollInput s).2.rb = s.rb := by rw [pollInput_frame s]
@[simp] theorem pollInput_status (s : State) : (pollInput s).2.status = s.status := by rw [pollInput_frame s]
@[simp] theorem pollInput_config (s : State) : (pollInput s).2.config = s.config := by rw [pollInput_frame s]

/-- An instruction begun in a legal state that has not faulted leaves a legal one. -/
theorem Effect.inv {i : Instr} {s t : State} (he : Effect i s t) (h : s.Inv) (hs : s.status ≠ .faulted) : t.Inv := by
  cases he with
  | addressFault f k p hr _ hk => exact raiseFault_inv f s h (resolve_error_fits s k p f hk.2 hr)
  | overflow f k r hr hi =>
    have hk : k = 1 ∨ k = 3 := by
      rcases hi with ⟨hk, -⟩ | ⟨hk, -⟩
      · exact .inr hk
      · exact .inl hk
    exact raiseFault_inv f s h (checkResult_error_fits s k r f hk hr)
  | store k p d v hr _ _ _ => exact State.inv_advance _ 4 (State.inv_write s d v (resolve_lt s k p d hr) h)
  | input p d v _ hr _ =>
    have hd : d < (pollInput s).2.config.memDepth := by
      rw [pollInput_config]
      exact resolve_lt s 1 p d hr
    exact State.inv_advance _ 2 (State.inv_write _ d v hd (pollInput_inv s h))
  | suspend p d _ _ _ => exact State.inv_withStatus _ _ (pollInput_inv s h) (by simpa using hs) (by simp)
  | output p v _ _ =>
    have ht : ((emit v s).advance 2).Inv := State.inv_advance _ 2 (emit_inv v s h)
    split_ifs
    · exact State.inv_withStatus _ _ ht hs (by simp)
    · exact ht
  | jump | fallThrough | adjust => exact h
  | halt _ => exact State.inv_withStatus s _ h hs (by simp)

/-- Settles O45: step 1 of R117 keeps a legal state legal, a fault's record fits its cause, and each effect of an
instruction is made of operations that keep the legal states. -/
theorem stepKeepsTheInvariant : Obligations.StepKeepsTheInvariant := by
  intro s t h hstep
  have hbegin (hs : s.status.terminal = false) : s.begin.Inv :=
    State.inv_withStatus s .running h (by rintro e; simp [e] at hs) (by simp)
  rcases (step_next s t).1 hstep with ⟨-, rfl⟩ | ⟨hs, f, hf, rfl⟩ | ⟨hs, i, -, he⟩
  · exact h
  · exact raiseFault_inv f _ (hbegin hs) (fetchInstr_error_fits _ f hf)
  · exact (exec_effect i _ t he).inv (hbegin hs) (by simp)

/-! ## The program counter -/

@[simp] theorem shapeOf_buildInstr_op (d : Decoded) (raw : Nat → Word) : (shapeOf (buildInstr d raw)).op = d.op := by
  unfold buildInstr
  cases d.op <;> rfl

/-- A fetched instruction lies in the array, so pc moves past its words without wrapping (R21). -/
theorem fetchInstr_advance_exact (s : State) (i : Instr) (hc : s.config.legal) (h : fetchInstr s = .ok i) :
    (s.pc + BitVec.ofNat 64 (opLen (shapeOf i).op)).toInt = s.pc.toInt + opLen (shapeOf i).op ∧
      s.pc.toInt + opLen (shapeOf i).op ≤ s.config.memDepth := by
  obtain ⟨h0, d, -, hle, rfl⟩ := (fetchInstr_ok s i).1 h
  rw [shapeOf_buildInstr_op]
  have hmax : s.pc.toInt + opLen d.op ≤ maxWord := by
    have := hc.2
    simp only [maxWord]
    omega
  exact ⟨pc_advance_exact s.pc _ h0 hmax, hle⟩

/-- Where an instruction that does not fault leaves pc (spec/43_control.md R193): at itself, at the target of a taken
jump, or advanced by its length. -/
theorem Effect.pc_cases {i : Instr} {s t : State} (he : Effect i s t) (ht : t.status ≠ .faulted) :
    (t.pc = s.pc ∧ ((i = .hlt ∧ t.status = .halted) ∨ ((∃ p1, i = .inp p1) ∧ t.status = .awaitingInput))) ∨
    (∃ p1 p2 a, ((i = .jt p1 p2 ∧ a ≠ 0) ∨ (i = .jf p1 p2 ∧ a = 0)) ∧ readParam s 1 p1 = .ok a ∧
      readParam s 2 p2 = .ok t.pc) ∨
    (t.pc = s.pc + BitVec.ofNat 64 (opLen (shapeOf i).op) ∧ i ≠ .hlt) := by
  cases he with
  | addressFault | overflow => exact absurd rfl ht
  | store k p d v _ _ _ hl => exact .inr (.inr ⟨by simp [hl], by rintro rfl; simp [shapeOf, opLen] at hl⟩)
  | input p d v hi _ _ => subst hi; exact .inr (.inr ⟨by simp [shapeOf, opLen], by simp⟩)
  | suspend p d hi _ _ => exact .inl ⟨pollInput_pc s, .inr ⟨⟨p, hi⟩, rfl⟩⟩
  | output p v hi _ => subst hi; exact .inr (.inr ⟨by split_ifs <;> rfl, by simp⟩)
  | jump p1 p2 a v hi h1 h2 => exact .inr (.inl ⟨p1, p2, a, hi, h1, h2⟩)
  | fallThrough p1 p2 hi => rcases hi with rfl | rfl <;> exact .inr (.inr ⟨rfl, by simp⟩)
  | adjust p r hi => subst hi; exact .inr (.inr ⟨rfl, by simp⟩)
  | halt hi => exact .inl ⟨rfl, .inl ⟨hi, rfl⟩⟩

/-- The instruction part of a step that fetched one. -/
theorem step_effect (s t : State) (i : Instr) (hs : s.status.terminal = false) (hf : fetchInstr s.begin = .ok i)
    (h : step s = .next t) : Effect i s.begin t := by
  rcases (step_next s t).1 h with ⟨hs', -⟩ | ⟨-, f, hf', -⟩ | ⟨-, j, hj, he⟩
  · simp [hs] at hs'
  · simp [hf] at hf'
  · obtain rfl : i = j := Except.ok.inj (hf.symm.trans hj)
    exact exec_effect i _ t he

/-- Settles O19, by the effect of the fetched instruction; the advance is exact since its words lie in the array. -/
theorem pcIsKeptJumpsOrAdvancesExactly : Obligations.PcIsKeptJumpsOrAdvancesExactly := by
  intro s t i hc hs hf h ht
  rcases (step_effect s t i hs hf h).pc_cases ht with hkept | hjump | ⟨hpc, hi⟩
  · exact .inl hkept
  · exact .inr (.inl hjump)
  · obtain ⟨hexact, hle⟩ := fetchInstr_advance_exact s.begin i hc hf
    rw [← hpc] at hexact
    exact .inr (.inr ⟨hexact, hexact.trans_le hle, hi⟩)

/-! ## The relative base -/

/-- An instruction keeps rb or is an AdjustRelativeBase (R197). -/
theorem Effect.rb_cases {i : Instr} {s t : State} (he : Effect i s t) : t.rb = s.rb ∨ ∃ p1, i = .arb p1 := by
  cases he with
  | adjust p r hi => exact .inr ⟨p, hi⟩
  | input | suspend => exact .inl (pollInput_rb s)
  | output p v _ _ => exact .inl (by split_ifs <;> rfl)
  | _ => exact .inl rfl

/-- Settles O21: a terminal status and a fault on the way keep rb, and so does every other instruction. -/
theorem onlyAdjustRelativeBaseChangesRb : Obligations.OnlyAdjustRelativeBaseChangesRb := by
  intro s t h hrb
  rcases (step_next s t).1 h with ⟨-, rfl⟩ | ⟨-, f, -, rfl⟩ | ⟨hs, i, hf, he⟩
  · exact absurd rfl hrb
  · exact absurd rfl hrb
  · rcases (exec_effect i _ t he).rb_cases with hkept | ⟨p1, rfl⟩
    · exact absurd hkept hrb
    · exact ⟨hs, p1, hf⟩

end Sys2Proof.Machine
end

section
/-! PROOFS. Memory (spec/20_memory.md): a canonical memory is fixed by what it reads as (R52, R53), and a step writes
nothing or one word, at the resolved write target of the instruction it fetched (R55, R58, R62). -/

namespace Sys2Proof.Machine

/-! ## The canonical form -/

/-- A canonical memory lists exactly the addresses that do not read as unset, each with what it reads as (R52). -/
theorem Memory.mem_iff_read (m : Memory) (hm : m.wf) (c : Nat × Word) : c ∈ m ↔ c.2 ≠ 0#64 ∧ m.read c.1 = c.2 := by
  induction m with
  | nil =>
    simp only [List.not_mem_nil, Memory.read_nil, false_iff]
    exact fun h => h.1 h.2.symm
  | cons d rest ih =>
    obtain ⟨hd, hd0, hrest⟩ := (Memory.wf_cons d rest).1 hm
    by_cases hc : c.1 = d.1
    · have hnot : c ∉ rest := fun h => absurd hc.symm (hd c h).ne
      have hval : c = d ↔ d.2 = c.2 := by simp [Prod.ext_iff, hc, eq_comm]
      simp only [List.mem_cons, hnot, or_false, hval, Memory.read, hc, if_true]
      exact ⟨fun h => ⟨h ▸ hd0, h⟩, fun h => h.2⟩
    · have hne : c ≠ d := fun h => hc (congrArg Prod.fst h)
      simp [Memory.read, hc, hne, ih hrest]

/-- Settles O8: memories that read alike list the same cells, and rising addresses leave one order for them. -/
theorem canonicalMemoriesThatReadAlikeAreEqual : Obligations.CanonicalMemoriesThatReadAlikeAreEqual := by
  intro m n hm hn hread
  have hanti : Std.Antisymm (fun x y : Nat × Word => x.1 < y.1) := ⟨fun _ _ h h' => absurd h' h.asymm⟩
  have hirrefl : Std.Irrefl (fun x y : Nat × Word => x.1 < y.1) := ⟨fun x => lt_irrefl x.1⟩
  refine hm.1.eq_of_mem_iff hn.1 fun c => ?_
  rw [Memory.mem_iff_read m hm, Memory.mem_iff_read n hn, hread]

/-! ## The write target -/

/-- A legal word has no Immediate write target (spec/30_encoding.md R88). -/
theorem decodeWord_writeTargets (hd : HighDigits) (w : Word) (d : Decoded) (h : decodeWord hd w = .ok d) :
    ∀ k ∈ writeTargets d.op, decodedMode d k ≠ .immediate := by
  unfold decodeWord at h
  split_ifs at h
  rcases hop : opOfCode (w.toNat % 100) with _ | op
  · simp [hop] at h
  rcases h1 : decodeMode w 1 with f | m1
  · simp [hop, h1, bind, Except.bind] at h
  rcases h2 : decodeMode w 2 with f | m2
  · simp [hop, h1, h2, bind, Except.bind] at h
  rcases h3 : decodeMode w 3 with f | m3
  · simp [hop, h1, h2, h3, bind, Except.bind] at h
  simp only [hop, h1, h2, h3, bind, Except.bind] at h
  obtain ⟨rfl, htargets⟩ := (checkWriteTargets_ok _ _ _).1 h
  exact htargets

/-- Operand assembly gives the parameters 1 to L(op) - 1, each with its decoded mode and operand word
(spec/30_encoding.md R87). -/
theorem instrParams_buildInstr (d : Decoded) (raw : Nat → Word) :
    instrParams (buildInstr d raw) = (List.range' 1 (opLen d.op - 1)).map fun k => ⟨decodedMode d k, raw k⟩ := by
  obtain ⟨op, m1, m2, m3⟩ := d
  cases op <;> rfl

/-- No write target of a fetched instruction is Immediate (R66). -/
theorem fetchInstr_writeTarget_mode (s : State) (i : Instr) (k : Nat) (p : Param) (hf : fetchInstr s = .ok i)
    (hk : k ∈ writeTargets (shapeOf i).op) (hp : (instrParams i)[k - 1]? = some p) : p.mode ≠ .immediate := by
  obtain ⟨-, d, hd, -, rfl⟩ := (fetchInstr_ok s i).1 hf
  rw [shapeOf_buildInstr_op] at hk
  have hmode : decodedMode d k ≠ .immediate := decodeWord_writeTargets _ _ d hd k hk
  have hpos : 1 + (k - 1) = k := by
    rcases writeTargets_cases d.op with ht | ht | ht <;> simp [ht] at hk <;> omega
  rw [instrParams_buildInstr, List.getElem?_map, Option.map_eq_some_iff] at hp
  obtain ⟨j, hj, rfl⟩ := hp
  obtain ⟨-, rfl⟩ := List.getElem?_eq_some_iff.1 hj
  simpa [hpos] using hmode

/-! ## What a step does to memory -/

@[simp] theorem pollInput_mem (s : State) : (pollInput s).2.mem = s.mem := by rw [pollInput_frame s]

/-- An instruction keeps memory or writes one word, at the address its write target resolved to (R55). -/
theorem Effect.mem_cases {i : Instr} {s t : State} (he : Effect i s t) :
    t.mem = s.mem ∨
    ∃ k p a v, k ∈ writeTargets (shapeOf i).op ∧ (instrParams i)[k - 1]? = some p ∧ resolve s k p = .ok a ∧
      t.mem = s.mem.write a v := by
  cases he with
  | store k p a v hr hw hp _ => exact .inr ⟨k, p, a, v, hw, hp, hr, rfl⟩
  | input p a v hi hr _ =>
    subst hi
    exact .inr ⟨1, p, a, v, by simp [shapeOf, writeTargets], rfl, hr, by simp⟩
  | suspend => exact .inl (pollInput_mem s)
  | output p v _ _ => exact .inl (by split_ifs <;> rfl)
  | _ => exact .inl rfl

/-- A step keeps memory or makes the one write of the instruction it fetched (R62). -/
theorem step_mem_cases (s t : State) (h : step s = .next t) :
    t.mem = s.mem ∨
    ∃ i k p a v, fetchInstr s.begin = .ok i ∧ k ∈ writeTargets (shapeOf i).op ∧ (instrParams i)[k - 1]? = some p ∧
      resolve s.begin k p = .ok a ∧ t.mem = s.mem.write a v := by
  rcases (step_next s t).1 h with ⟨-, rfl⟩ | ⟨-, f, -, rfl⟩ | ⟨-, i, hf, he⟩
  · exact .inl rfl
  · exact .inl rfl
  · rcases (exec_effect i _ t he).mem_cases with hkept | ⟨k, p, a, v, hk, hp, hr, hmem⟩
    · exact .inl hkept
    · exact .inr ⟨i, k, p, a, v, hf, hk, hp, hr, hmem⟩

/-- A write changes no word but the one addressed (R58). -/
theorem State.eq_of_read_ne {s t : State} {a x : Nat} {v : Word} (hmem : t.mem = s.mem.write a v)
    (hx : t.read x ≠ s.read x) : x = a := by
  by_contra hne
  exact hx (by simp [State.read, hmem, Memory.read_write_other _ _ _ _ hne])

/-- Settles O9: each changed word is the one the step's only write addresses. -/
theorem stepWritesAtMostOneWord : Obligations.StepWritesAtMostOneWord := by
  intro s t h x y hx hy
  rcases step_mem_cases s t h with hkept | ⟨_, _, _, a, v, -, -, -, -, hmem⟩
  · exact absurd (congrArg (Memory.read · x) hkept) hx
  · exact (State.eq_of_read_ne hmem hx).trans (State.eq_of_read_ne hmem hy).symm

/-- Settles O10: the step's only write goes to the resolved write target, which the decoder keeps from being
Immediate. -/
theorem memoryChangesOnlyAtTheWriteTarget : Obligations.MemoryChangesOnlyAtTheWriteTarget := by
  intro s t x h hx
  rcases step_mem_cases s t h with hkept | ⟨i, k, p, a, v, hf, hk, hp, hr, hmem⟩
  · exact absurd (congrArg (Memory.read · x) hkept) hx
  · obtain rfl := State.eq_of_read_ne hmem hx
    exact ⟨i, k, p, hf, hk, hp, fetchInstr_writeTarget_mode _ i k p hf hk hp, hr⟩

end Sys2Proof.Machine
end

section
/-! PROOFS. The decoder and the encoder (spec/30_encoding.md): which words are legal (R84), the first cause of an illegal
one (R85) as a function of the digits the decoder reads, and the encoding read back (R95). -/

namespace Sys2Proof

/-! ## The digits the decoder reads -/

/-- `digit w 2`, `digit w 3` and `digit w 4`, written as R81 writes them. -/
theorem digit_two (n : Nat) : digit n 2 = n / 100 % 10 := rfl
theorem digit_three (n : Nat) : digit n 3 = n / 1000 % 10 := rfl
theorem digit_four (n : Nat) : digit n 4 = n / 10000 % 10 := rfl

/-- The digits of parameters 1 to 3 lie below 10^5 (R81). -/
theorem digit_add_high (n j k : Nat) (hk : k ≤ 4) : digit (n + 100000 * j) k = digit n k := by
  unfold digit
  interval_cases k <;> omega

theorem modeDigit_eq_one (m : Mode) : modeDigit m = 1 ↔ m = .immediate := by cases m <;> simp [modeDigit]

/-! ## The legal words -/

/-- A sequence of two checks passes exactly when both do. -/
theorem except_bind_eq_ok {ε α β : Type} (x : Except ε α) (f : α → Except ε β) (b : β) :
    (x >>= f) = .ok b ↔ ∃ a, x = .ok a ∧ f a = .ok b := by
  cases x <;> simp [bind, Except.bind]

/-- Under HIGH_DIGITS = ignore no word is refused for its high digits. -/
@[simp] theorem highDigitsRefused_ignore (w : Word) : highDigitsRefused .ignore w = false := rfl

theorem highDigitsRefused_eq_true (hd : HighDigits) (w : Word) :
    highDigitsRefused hd w = true ↔ hd = .fault ∧ 100000 ≤ w.toNat := by
  simp [highDigitsRefused]

/-- The words the decoder accepts (R84), each with its one answer. -/
theorem decodeWord_ok (hd : HighDigits) (w : Word) (d : Decoded) :
    decodeWord hd w = .ok d ↔
      0 ≤ w.toInt ∧ highDigitsRefused hd w = false ∧ w.toNat % 100 = opCode d.op ∧
        digit w.toNat 2 = modeDigit d.mode1 ∧ digit w.toNat 3 = modeDigit d.mode2 ∧
        digit w.toNat 4 = modeDigit d.mode3 ∧ ∀ k ∈ writeTargets d.op, decodedMode d k ≠ .immediate := by
  unfold decodeWord
  by_cases hneg : w.toInt < 0
  · simp [hneg, not_le.2 hneg]
  by_cases hhigh : highDigitsRefused hd w = true
  · simp [hneg, hhigh]
  simp only [hneg, hhigh, Bool.false_eq_true, if_false, not_lt.1 hneg, true_and, ← opOfCode_eq_some]
  rcases opOfCode (w.toNat % 100) with _ | op
  · simp
  · simp only [except_bind_eq_ok, decodeMode_ok, checkWriteTargets_ok, Option.some.injEq]
    constructor
    · rintro ⟨m1, h1, m2, h2, m3, h3, rfl, htargets⟩
      exact ⟨rfl, h1, h2, h3, htargets⟩
    · rintro ⟨rfl, h1, h2, h3, htargets⟩
      exact ⟨_, h1, _, h2, _, h3, rfl, htargets⟩

/-- Settles O3: the accepted words under HIGH_DIGITS = ignore, with the digits written as R81 writes them. -/
theorem decodeAcceptsExactlyTheLegalWords : Obligations.DecodeAcceptsExactlyTheLegalWords := by
  intro w d
  rw [decodeWord_ok]
  simp only [highDigitsRefused_ignore, true_and, digit_two, digit_three, digit_four, eq_comm]

/-- Settles O2: the opcode and the three digits are the whole of w modulo 100000. -/
theorem legalWordIsItsEncodingModuloHighDigits : Obligations.LegalWordIsItsEncodingModuloHighDigits := by
  intro hd w d h
  obtain ⟨hpos, -, hop, h1, h2, h3, -⟩ := (decodeWord_ok hd w d).1 h
  rw [digit_two] at h1
  rw [digit_three] at h2
  rw [digit_four] at h3
  refine ⟨hpos, ?_⟩
  rw [encodeWord_toNat, ← hop, ← h1, ← h2, ← h3]
  omega

/-! ## The encoding read back -/

/-- A canonical instruction word decodes to what it encodes, unless the decoder must refuse it (R88). -/
theorem decodeWord_encodeWord (hd : HighDigits) (d : Decoded)
    (h : ∀ k ∈ writeTargets d.op, decodedMode d k ≠ .immediate) : decodeWord hd (encodeWord d) = .ok d := by
  have hlt := encodeWord_lt d
  have hval := encodeWord_toNat d
  have h0 := opCode_lt d.op
  have h1 := modeDigit_lt d.mode1
  have h2 := modeDigit_lt d.mode2
  have h3 := modeDigit_lt d.mode3
  have hpos : 0 ≤ (encodeWord d).toInt := by
    rw [BitVec.toInt_eq_toNat_of_lt (by omega)]
    exact Int.natCast_nonneg _
  have hhigh : highDigitsRefused hd (encodeWord d) = false := by
    rw [← Bool.not_eq_true, highDigitsRefused_eq_true]
    omega
  refine (decodeWord_ok hd _ d).2 ⟨hpos, hhigh, encodeWord_opcode d, ?_, ?_, ?_, h⟩
  · rw [digit_two]; omega
  · rw [digit_three]; omega
  · rw [digit_four]; omega

/-- A well-formed instruction has no Immediate write target (R88). -/
theorem shapeOf_writeTargets (i : Instr) (h : i.wellFormed = true) :
    ∀ k ∈ writeTargets (shapeOf i).op, decodedMode (shapeOf i) k ≠ .immediate := by
  cases i with
  | add _ _ p | mul _ _ p | lt _ _ p | eq _ _ p | inp p =>
    simpa [Instr.wellFormed, Param.writable, shapeOf, writeTargets, decodedMode] using h
  | out | jt | jf | arb | hlt => simp [shapeOf, writeTargets]

/-- An instruction has L(op) - 1 parameters (R80). -/
theorem instrParams_length (i : Instr) : (instrParams i).length = opLen (shapeOf i).op - 1 := by cases i <;> rfl

/-- Operand assembly from an instruction's own operand words gives it back (R87). -/
theorem buildInstr_shapeOf (i : Instr) (rest : List Word) :
    buildInstr (shapeOf i) (fun k => ((instrParams i).map Param.raw ++ rest).getD (k - 1) 0) = i := by
  cases i <;> rfl

/-- Settles O1: the instruction word decodes to the instruction's opcode and modes, and its operand words are exactly
those that operand assembly takes. -/
theorem decodeInvertsEncode : Obligations.DecodeInvertsEncode := by
  intro hd i rest h
  have hlen : ((instrParams i).map Param.raw).length = opLen (shapeOf i).op - 1 := by simp [instrParams_length]
  have henough : ¬ ((instrParams i).map Param.raw ++ rest).length < opLen (shapeOf i).op - 1 := by
    rw [List.length_append]
    omega
  simp only [encode, List.cons_append, decode, decodeWord_encodeWord hd _ (shapeOf_writeTargets i h), henough, if_false,
    buildInstr_shapeOf, List.drop_left' hlen]

/-- Settles O7, by running the decoder on the five words. -/
theorem sampleWordsDecode : Obligations.SampleWordsDecode := by
  unfold Obligations.SampleWordsDecode
  decide

/-! ## The first cause -/

/-- The first cause that makes the instruction word w >= 0 illegal, in the order of R85, with the parameter it is
about; `none` for a legal word. -/
def firstCause (w : Nat) : Option (FaultCause × Nat) :=
  match opOfCode (w % 100) with
  | none => some (.invalidOpcode, 0)
  | some op =>
    (([1, 2, 3].find? fun k => decide (2 < digit w (k + 1))).map (.badModeDigit, ·)).or
      (((writeTargets op).find? fun k => decide (digit w (k + 1) = 1)).map (.immediateWriteTarget, ·))

/-- A write target is Immediate when its mode digit is 1 (R83). -/
theorem decodedMode_eq_immediate (w : Word) (op : Op) (m1 m2 m3 : Mode) (h1 : digit w.toNat 2 = modeDigit m1)
    (h3 : digit w.toNat 4 = modeDigit m3) (k : Nat) (hk : k ∈ writeTargets op) :
    decodedMode ⟨op, m1, m2, m3⟩ k = .immediate ↔ digit w.toNat (k + 1) = 1 := by
  have hcases : k = 1 ∨ k = 3 := by rcases writeTargets_cases op with ht | ht | ht <;> simp_all
  rcases hcases with rfl | rfl
  · simp [decodedMode, h1, modeDigit_eq_one]
  · simp [decodedMode, h3, modeDigit_eq_one]

/-- Two searches of one list agree when their conditions do on its entries. -/
theorem find?_decide_congr (l : List Nat) (p q : Nat → Prop) [DecidablePred p] [DecidablePred q]
    (h : ∀ k ∈ l, (p k ↔ q k)) : (l.find? fun k => decide (p k)) = l.find? fun k => decide (q k) :=
  List.find?_congr fun k hk => decide_eq_decide.2 (h k hk)

/-- The check of the write targets (R88) is a search for the mode digit 1. -/
theorem find?_immediate_writeTarget (w : Word) (op : Op) (m1 m2 m3 : Mode) (h1 : digit w.toNat 2 = modeDigit m1)
    (h3 : digit w.toNat 4 = modeDigit m3) :
    (writeTargets op).find? (fun k => decodedMode ⟨op, m1, m2, m3⟩ k == .immediate) =
      (writeTargets op).find? fun k => decide (digit w.toNat (k + 1) = 1) := by
  simp only [beq_eq_decide]
  exact find?_decide_congr _ _ _ (decodedMode_eq_immediate w op m1 m2 m3 h1 h3)

/-- A digit with a mode is not a bad one (R83). -/
theorem digit_of_decodeMode_ok (w : Word) (k : Nat) (m : Mode) (h : decodeMode w k = .ok m) :
    ¬ 2 < digit w.toNat (k + 1) := by
  rw [(decodeMode_ok w k m).1 h]
  have := modeDigit_lt m
  omega

/-- The decoder answers a word w >= 0 with its first cause, and a word without one is legal (R84, R85). -/
theorem decodeWord_firstCause (w : Word) (h : 0 ≤ w.toInt) :
    (∃ c k, firstCause w.toNat = some (c, k) ∧ decodeWord .ignore w = .error ⟨c, k, w.toInt⟩) ∨
    (firstCause w.toNat = none ∧ ∃ d, decodeWord .ignore w = .ok d) := by
  unfold firstCause decodeWord
  simp only [not_lt.2 h, highDigitsRefused_ignore, Bool.false_eq_true, if_false]
  rcases opOfCode (w.toNat % 100) with _ | op
  · simp
  rcases h1 : decodeMode w 1 with f | m1
  · obtain ⟨hbad, rfl⟩ := (decodeMode_error w 1 f).1 h1
    simp [hbad, bind, Except.bind]
  have hd1 := digit_of_decodeMode_ok w 1 m1 h1
  rcases h2 : decodeMode w 2 with f | m2
  · obtain ⟨hbad, rfl⟩ := (decodeMode_error w 2 f).1 h2
    simp [hd1, hbad, bind, Except.bind]
  have hd2 := digit_of_decodeMode_ok w 2 m2 h2
  rcases h3 : decodeMode w 3 with f | m3
  · obtain ⟨hbad, rfl⟩ := (decodeMode_error w 3 f).1 h3
    simp [hd1, hd2, hbad, bind, Except.bind]
  have hd3 := digit_of_decodeMode_ok w 3 m3 h3
  have htargets := find?_immediate_writeTarget w op m1 m2 m3 ((decodeMode_ok w 1 m1).1 h1) ((decodeMode_ok w 3 m3).1 h3)
  simp only [bind, Except.bind, checkWriteTargets, htargets]
  rcases (writeTargets op).find? fun k => decide (digit w.toNat (k + 1) = 1) with _ | k
  · simp [hd1, hd2, hd3]
  · simp [hd1, hd2, hd3]

/-- The words w >= 0 that the decoder refuses, each with the cause and the parameter it reports (R85). -/
theorem decodeWord_error_iff (w : Word) (h : 0 ≤ w.toInt) (c : FaultCause) (k : Nat) :
    decodeWord .ignore w = .error ⟨c, k, w.toInt⟩ ↔ firstCause w.toNat = some (c, k) := by
  rcases decodeWord_firstCause w h with ⟨c', k', hcause, hw⟩ | ⟨hcause, d, hw⟩ <;> simp [hcause, hw]

theorem decodeWord_ok_iff_firstCause (w : Word) (h : 0 ≤ w.toInt) :
    (∃ d, decodeWord .ignore w = .ok d) ↔ firstCause w.toNat = none := by
  rcases decodeWord_firstCause w h with ⟨c, k, hcause, hw⟩ | ⟨hcause, d, hw⟩ <;> simp [hcause, hw]

/-! ### The first cause, case by case (R85) -/

theorem firstCause_invalidOpcode (n : Nat) (h : n % 100 ∉ [1, 2, 3, 4, 5, 6, 7, 8, 9, 99]) :
    firstCause n = some (.invalidOpcode, 0) := by
  simp only [firstCause, (opOfCode_eq_none _).2 h]

/-- Each defined opcode is one of the ten (R86). -/
theorem exists_opOfCode (n : Nat) (h : n ∈ [1, 2, 3, 4, 5, 6, 7, 8, 9, 99]) : ∃ op, opOfCode n = some op := by
  rw [← Option.ne_none_iff_exists', Ne, opOfCode_eq_none]
  exact not_not.2 h

/-- With a defined opcode the first bad mode digit is reported before any write target (R85). -/
theorem firstCause_badModeDigit (n k : Nat) (h : n % 100 ∈ [1, 2, 3, 4, 5, 6, 7, 8, 9, 99])
    (hk : ([1, 2, 3].find? fun k => decide (2 < digit n (k + 1))) = some k) :
    firstCause n = some (.badModeDigit, k) := by
  obtain ⟨op, hop⟩ := exists_opOfCode _ h
  simp only [firstCause, hop, hk, Option.map_some, Option.some_or]

/-- With a defined opcode and three good mode digits an Immediate write target is reported (R85, R88). -/
theorem firstCause_immediateWriteTarget (n k : Nat) (op : Op) (hop : n % 100 = opCode op)
    (hd : ∀ j ∈ [1, 2, 3], digit n (j + 1) ≤ 2) (hk : writeTargets op = [k]) (h1 : digit n (k + 1) = 1) :
    firstCause n = some (.immediateWriteTarget, k) := by
  have hgood : ([1, 2, 3].find? fun k => decide (2 < digit n (k + 1))) = none := by
    simpa [List.find?_eq_none] using hd
  simp only [firstCause, (opOfCode_eq_some _ op).2 hop, hgood, Option.map_none, Option.none_or]
  simp [hk, h1]

/-- The four opcodes that store to parameter 3 (R88). -/
theorem exists_writeTargets_three (n : Nat) (h : n ∈ [1, 2, 7, 8]) : ∃ op, n = opCode op ∧ writeTargets op = [3] := by
  simp only [List.mem_cons, List.not_mem_nil, or_false] at h
  rcases h with rfl | rfl | rfl | rfl
  · exact ⟨.add, rfl, rfl⟩
  · exact ⟨.mul, rfl, rfl⟩
  · exact ⟨.lt, rfl, rfl⟩
  · exact ⟨.eq, rfl, rfl⟩

theorem decodeWord_negative (hd : HighDigits) (w : Word) (h : w.toInt < 0) :
    decodeWord hd w = .error ⟨.invalidOpcode, 0, w.toInt⟩ := by
  simp [decodeWord, h]

/-- Settles O4: a negative word is refused at once, and each other clause names its first cause. -/
theorem decoderReportsTheFirstCause : Obligations.DecoderReportsTheFirstCause := by
  refine ⟨fun w => ⟨decodeWord_negative .ignore w, ?_, ?_, ?_, ?_, ?_, ?_⟩, by decide, by decide⟩
  · rintro ⟨h0, hop⟩
    exact (decodeWord_error_iff w h0 _ _).2 (firstCause_invalidOpcode _ hop)
  · rintro ⟨h0, hop, hd1⟩
    exact (decodeWord_error_iff w h0 _ _).2 (firstCause_badModeDigit _ 1 hop (by simp [digit_two, hd1]))
  · rintro ⟨h0, hop, hd1, hd2⟩
    exact (decodeWord_error_iff w h0 _ _).2
      (firstCause_badModeDigit _ 2 hop (by simp [digit_two, digit_three, not_lt.2 hd1, hd2]))
  · rintro ⟨h0, hop, hd1, hd2, hd3⟩
    exact (decodeWord_error_iff w h0 _ _).2
      (firstCause_badModeDigit _ 3 hop (by simp [digit_two, digit_three, digit_four, not_lt.2 hd1, not_lt.2 hd2, hd3]))
  · rintro ⟨h0, hd1, hd2, hd3, hop, htarget⟩
    obtain ⟨op, hop, hwrite⟩ := exists_writeTargets_three _ hop
    exact (decodeWord_error_iff w h0 _ _).2
      (firstCause_immediateWriteTarget _ 3 op hop (by simp [digit_two, digit_three, digit_four, hd1, hd2, hd3]) hwrite htarget)
  · rintro ⟨h0, hd1, hd2, hd3, hop, htarget⟩
    exact (decodeWord_error_iff w h0 _ _).2
      (firstCause_immediateWriteTarget _ 1 .inp hop (by simp [digit_two, digit_three, digit_four, hd1, hd2, hd3]) rfl htarget)

/-! ## The digits that are not read -/

/-- The first cause depends on the opcode, on which mode digits are bad and on which write targets have digit 1. -/
theorem firstCause_congr (m n : Nat) (hop : m % 100 = n % 100)
    (hbad : ∀ k ∈ [1, 2, 3], (2 < digit m (k + 1) ↔ 2 < digit n (k + 1)))
    (hwrite : ∀ op, n % 100 = opCode op → ∀ k ∈ writeTargets op, (digit m (k + 1) = 1 ↔ digit n (k + 1) = 1)) :
    firstCause m = firstCause n := by
  unfold firstCause
  rw [hop]
  rcases hc : opOfCode (n % 100) with _ | op
  · rfl
  have hdigits := find?_decide_congr _ _ _ hbad
  have htargets := find?_decide_congr _ _ _ (hwrite op ((opOfCode_eq_some _ op).1 hc))
  simp only [hdigits, htargets]

/-- Digits 5 and up give no cause (R81). -/
theorem firstCause_add_high (n j : Nat) : firstCause (n + 100000 * j) = firstCause n := by
  refine firstCause_congr _ n (by omega) (fun k hk => ?_) (fun op _ k hk => ?_)
  · rw [digit_add_high]
    fin_cases hk <;> simp
  · rw [digit_add_high]
    rcases writeTargets_cases op with ht | ht | ht <;> simp_all

/-- HIGH_DIGITS matters only to a word it refuses (R81). -/
theorem decodeWord_of_not_refused (hd : HighDigits) (w : Word) (h : highDigitsRefused hd w = false) :
    decodeWord hd w = decodeWord .ignore w := by
  simp [decodeWord, h]

theorem decodeWord_refused (hd : HighDigits) (w : Word) (h : highDigitsRefused hd w = true) :
    decodeWord hd w = .error ⟨.invalidOpcode, 0, w.toInt⟩ := by
  simp [decodeWord, h]

/-- Settles O5: neither the accepted words nor the first cause depend on digits 5 and up, and HIGH_DIGITS = fault refuses
exactly the words w >= 0 that have such digits. -/
theorem highDigitsAreIgnoredOrFault : Obligations.HighDigitsAreIgnoredOrFault := by
  refine ⟨fun w v j hw hv => ?_, fun w hw => ?_, fun w hw => ?_⟩
  · have hv0 : 0 ≤ v.toInt := by omega
    have hnat : v.toNat = w.toNat + 100000 * j := by
      have := Machine.Word.toNat_of_nonneg w hw
      have := Machine.Word.toNat_of_nonneg v hv0
      omega
    refine ⟨fun d => ?_, fun c k => ?_⟩
    · have hcode : (w.toNat + 100000 * j) % 100 = w.toNat % 100 := by omega
      simp [decodeWord_ok, hnat, digit_add_high, hw, hv0, hcode]
    · rw [decodeWord_error_iff v hv0, decodeWord_error_iff w hw, hnat, firstCause_add_high]
  · have := Machine.Word.toNat_of_nonneg w (by omega)
    exact decodeWord_refused .fault w ((highDigitsRefused_eq_true _ _).2 ⟨rfl, by omega⟩)
  · by_cases hneg : w.toInt < 0
    · rw [decodeWord_negative .fault w hneg, decodeWord_negative .ignore w hneg]
    · have := Machine.Word.toNat_of_nonneg w (by omega)
      refine decodeWord_of_not_refused .fault w ?_
      rw [← Bool.not_eq_true, highDigitsRefused_eq_true]
      omega

/-- A write target is a parameter the opcode has (R86, R88). -/
theorem writeTargets_lt_opLen (op : Op) (k : Nat) (hk : k ∈ writeTargets op) : 1 ≤ k ∧ k < opLen op := by
  cases op <;> simp_all [writeTargets, opLen]

/-- The first cause reads a mode digit of a parameter the opcode does not have only to check it (R92). -/
theorem firstCause_unused_digits (m n : Nat) (op : Op) (hm : m % 100 = opCode op) (hn : n % 100 = opCode op)
    (hused : ∀ k, 1 ≤ k → k < opLen op → digit m (k + 1) = digit n (k + 1))
    (hunused : ∀ k, opLen op ≤ k → k ≤ 3 → digit m (k + 1) ≤ 2 ∧ digit n (k + 1) ≤ 2) :
    firstCause m = firstCause n := by
  refine firstCause_congr m n (hm.trans hn.symm) (fun k hk => ?_) (fun op' hop k hk => ?_)
  · have hrange : 1 ≤ k ∧ k ≤ 3 := by fin_cases hk <;> simp
    rcases lt_or_ge k (opLen op) with hlt | hge
    · rw [hused k hrange.1 hlt]
    · have := hunused k hge hrange.2
      omega
  · obtain rfl : op' = op := Option.some.inj <|
      ((opOfCode_eq_some _ _).2 hop).symm.trans ((opOfCode_eq_some _ _).2 hn)
    obtain ⟨hpos, hlt⟩ := writeTargets_lt_opLen op' k hk
    rw [hused k hpos hlt]

/-- Operand assembly reads the modes of the parameters the opcode has, and no others (R92). -/
theorem buildInstr_congr (d e : Decoded) (raw : Nat → Word) (hop : d.op = e.op)
    (hmode : ∀ k, 1 ≤ k → k < opLen d.op → decodedMode d k = decodedMode e k) : buildInstr d raw = buildInstr e raw := by
  obtain ⟨op, m1, m2, m3⟩ := d
  obtain ⟨op', n1, n2, n3⟩ := e
  obtain rfl : op = op' := hop
  have h1 : 1 < opLen op → m1 = n1 := hmode 1 (by omega)
  have h2 : 2 < opLen op → m2 = n2 := hmode 2 (by omega)
  have h3 : 3 < opLen op → m3 = n3 := hmode 3 (by omega)
  cases op with
  | add | mul | lt | eq => simp [buildInstr, h1 (by decide), h2 (by decide), h3 (by decide)]
  | jt | jf => simp [buildInstr, h1 (by decide), h2 (by decide)]
  | inp | out | arb => simp [buildInstr, h1 (by decide)]
  | hlt => rfl

/-- With a defined opcode a bad mode digit of any of the three parameters is the cause, used or not (R82, R92). -/
theorem exists_firstCause_badModeDigit (n : Nat) (hop : n % 100 ∈ [1, 2, 3, 4, 5, 6, 7, 8, 9, 99])
    (hbad : 2 < digit n 2 ∨ 2 < digit n 3 ∨ 2 < digit n 4) : ∃ k, firstCause n = some (.badModeDigit, k) := by
  have hsome : ([1, 2, 3].find? fun k => decide (2 < digit n (k + 1))).isSome := by
    simpa [List.find?_isSome] using hbad
  obtain ⟨k, hk⟩ := Option.isSome_iff_exists.1 hsome
  exact ⟨k, firstCause_badModeDigit n k hop hk⟩

/-- Settles O6: the unused mode digits are among the three that give BadModeDigit, and neither the first cause nor operand
assembly depends on them otherwise. -/
theorem unusedModeDigitsAreCheckedAndNotRead : Obligations.UnusedModeDigitsAreCheckedAndNotRead := by
  refine ⟨fun w h0 hop hbad => ?_, fun v w op hv0 hw0 hv hw hused hunused => ?_, buildInstr_congr, by decide, by decide,
    by decide⟩
  · obtain ⟨k, hk⟩ := exists_firstCause_badModeDigit _ hop hbad
    exact ⟨k, (decodeWord_error_iff w h0 _ k).2 hk⟩
  · have hcause := firstCause_unused_digits v.toNat w.toNat op hv hw hused hunused
    refine ⟨?_, fun c k => ?_⟩
    · rw [decodeWord_ok_iff_firstCause v hv0, decodeWord_ok_iff_firstCause w hw0, hcause]
    · rw [decodeWord_error_iff v hv0, decodeWord_error_iff w hw0, hcause]

end Sys2Proof
end

section
/-! PROOFS. The step (spec/40_engine.md): what a parameter names and reads (R112, R114, R115), the faults of fetch, decode
and operand fetch (R117 steps 2 to 4), and the instruction that runs when there are none. -/

namespace Sys2Proof.Machine

/-! ## Operand resolution -/

/-- What a parameter names, per mode (R114). -/
theorem paramAddr_eq (s : State) (k : Nat) (p : Param) (a : Int)
    (h : p.mode = .position ∧ a = p.raw.toInt ∨ p.mode = .immediate ∧ a = s.pc.toInt + k ∨
      p.mode = .relative ∧ a = s.rb.toInt + p.raw.toInt) : paramAddr s k p = a := by
  rcases h with ⟨hm, rfl⟩ | ⟨hm, rfl⟩ | ⟨hm, rfl⟩ <;> simp only [paramAddr, hm]

/-- Settles O25: the address check applied to what the parameter names. -/
theorem resolvedAddressPerMode : Obligations.ResolvedAddressPerMode := by
  intro s k raw mode a h
  obtain rfl := paramAddr_eq s k ⟨mode, raw⟩ a h
  exact ⟨fun hneg => (resolve_error s k _ _).2 (.inl ⟨hneg, rfl⟩),
    fun hbig => (resolve_error s k _ _).2 (.inr ⟨by omega, hbig, rfl⟩),
    fun hin => (resolve_ok s k _ _).2 ⟨hin.1, hin.2, rfl⟩⟩

/-- A parameter that names an address of the array reads the word there (R115). -/
theorem readParam_of_paramAddr (s : State) (k : Nat) (p : Param) (a : Int) (ha : paramAddr s k p = a) (h0 : 0 ≤ a)
    (h1 : a < s.config.memDepth) : readParam s k p = .ok (s.read a.toNat) := by
  subst ha
  exact (readParam_ok s k p _).2 ⟨_, (resolve_ok s k p _).2 ⟨h0, h1, rfl⟩, rfl⟩

/-- Parameter k of a fetched instruction holds M[ip+k], a word of the array (R117 step 4). -/
theorem fetchInstr_param (s : State) (i : Instr) (k : Nat) (p : Param) (hf : fetchInstr s = .ok i) (hk : 1 ≤ k)
    (hp : (instrParams i)[k - 1]? = some p) :
    p.raw = s.read (s.pc.toInt.toNat + k) ∧ 0 ≤ s.pc.toInt ∧ s.pc.toInt + k < s.config.memDepth := by
  obtain ⟨h0, d, -, hle, rfl⟩ := (fetchInstr_ok s i).1 hf
  rw [instrParams_buildInstr, List.getElem?_map, Option.map_eq_some_iff] at hp
  obtain ⟨j, hj, rfl⟩ := hp
  obtain ⟨hlt, rfl⟩ := List.getElem?_eq_some_iff.1 hj
  rw [List.length_range'] at hlt
  have hpos : 1 + (k - 1) = k := by omega
  exact ⟨by simp [hpos], h0, by omega⟩

/-- Settles O26: an Immediate parameter names its own operand word, which the fetch has checked, and the other modes name
the addresses the statement takes to be in the array. -/
theorem readParameterPerMode : Obligations.ReadParameterPerMode := by
  intro s i k p hf hk hp
  obtain ⟨hraw, h0, hlt⟩ := fetchInstr_param s i k p hf hk hp
  refine ⟨hraw, fun hm => ?_, fun hm => ?_, fun hm => ?_⟩
  · have hself : (s.pc.toInt + k).toNat = s.pc.toInt.toNat + k := by omega
    rw [hraw, ← hself]
    exact readParam_of_paramAddr s k p _ (paramAddr_eq s k p _ (.inr (.inl ⟨hm, rfl⟩))) (by omega) hlt
  · exact readParam_of_paramAddr s k p _ (paramAddr_eq s k p _ (.inl ⟨hm, rfl⟩))
  · exact readParam_of_paramAddr s k p _ (paramAddr_eq s k p _ (.inr (.inr ⟨hm, rfl⟩)))

/-! ## A step that faults before its instruction -/

theorem step_of_fetch_error (s : State) (f : FaultInfo) (hs : s.status.terminal = false)
    (hf : fetchInstr s.begin = .error f) : step s = .next (raiseFault f s.begin) :=
  (step_next s _).2 (.inr (.inl ⟨hs, f, hf, rfl⟩))

/-- Step 2 of R117: pc is no address of the array. -/
theorem fetchInstr_invalid_pc (s : State) (f : FaultInfo) (h : checkAddr s.config s.pc.toInt 0 = .error f) :
    fetchInstr s = .error f := by
  simp [fetchInstr, h, bind, Except.bind]

/-- Step 3 of R117: the word at pc is illegal. -/
theorem fetchInstr_illegal_word (s : State) (f : FaultInfo) (h0 : 0 ≤ s.pc.toInt) (h1 : s.pc.toInt < s.config.memDepth)
    (hd : decodeWord s.config.highDigits s.instrWord = .error f) : fetchInstr s = .error f := by
  have hpc := (checkAddr_ok s.config s.pc.toInt 0 _).2 ⟨h0, h1, rfl⟩
  change decodeWord _ (s.read s.pc.toInt.toNat) = _ at hd
  simp [fetchInstr, hpc, hd, bind, Except.bind]

/-- Step 4 of R117: the instruction's words run over the end of the array, the first one outside being at MEM_DEPTH. -/
theorem fetchInstr_truncated (s : State) (d : Decoded) (h0 : 0 ≤ s.pc.toInt) (h1 : s.pc.toInt < s.config.memDepth)
    (hd : decodeWord s.config.highDigits s.instrWord = .ok d) (hover : s.config.memDepth < s.pc.toInt + opLen d.op) :
    ∃ j : Nat, j < 4 ∧ s.pc.toInt + j = s.config.memDepth ∧
      fetchInstr s = .error ⟨.addressOutOfRange, j, s.config.memDepth⟩ := by
  rcases hf : fetchInstr s with f | i
  · rcases fetchInstr_error s f hf with ⟨hneg, -⟩ | ⟨-, hbig, -⟩ | ⟨-, -, hbad⟩ | ⟨-, -, e, -, j, -, hj, he, rfl⟩
    · omega
    · omega
    · simp [hd] at hbad
    · have hl := (opLen_pos e.op).2
      exact ⟨j, by omega, he, rfl⟩
  · obtain ⟨-, e, he, hle, -⟩ := (fetchInstr_ok s i).1 hf
    obtain rfl : d = e := Except.ok.inj (hd.symm.trans he)
    omega

/-- A Word is recorded exactly in the fault value (spec/10_state.md R26). -/
theorem faultValue_word (w : Word) : (BitVec.ofInt 65 w.toInt).toInt = w.toInt := by
  have hw := Word.toInt_bounds w
  simp only [minWord, maxWord] at hw
  exact faultValue_exact _ (by omega)

/-- The fault parameter, 2 bits, holds every parameter number (R26). -/
theorem faultParam_exact (k : Nat) (h : k < 4) : (BitVec.ofNat 2 k).toNat = k := by
  rw [BitVec.toNat_ofNat]
  exact Nat.mod_eq_of_lt h

/-- Settles O14: the address check refuses pc, and the fault is taken from the state at the begin of the step. -/
theorem fetchAtAnInvalidPcFaults : Obligations.FetchAtAnInvalidPcFaults := by
  intro s _ hs
  have hfault (f : FaultInfo) (hf : checkAddr s.config s.pc.toInt 0 = .error f) :=
    step_of_fetch_error s f hs (fetchInstr_invalid_pc s.begin f hf)
  exact ⟨fun hneg => ⟨_, hfault _ ((checkAddr_error _ _ _ _).2 (.inl ⟨hneg, rfl⟩)), faultValue_word s.pc, rfl⟩,
    fun hbig => ⟨_, hfault _ ((checkAddr_error _ _ _ _).2 (.inr ⟨by omega, hbig, rfl⟩)), faultValue_word s.pc, rfl⟩⟩

/-- Every fault of the decoder records the word and a parameter number (spec/30_encoding.md R84). -/
theorem decodeWord_error_record (hd : HighDigits) (w : Word) (f : FaultInfo) (h : decodeWord hd w = .error f) :
    f.value = w.toInt ∧ f.param ≤ 3 := by
  rcases decodeWord_error hd w f h with ⟨-, rfl⟩ | ⟨k, -, hk, -, rfl⟩ | ⟨op, -, k, hk, -, rfl⟩
  · exact ⟨rfl, by simp⟩
  · exact ⟨rfl, hk⟩
  · have hlen := (opLen_pos op).2
    have hlt := (writeTargets_lt_opLen op k hk).2
    exact ⟨rfl, by dsimp only; omega⟩

/-- Settles O15: the decoder's fault is the step's, and its parameter and value fit the record. -/
theorem illegalWordFaultsAsDecoded : Obligations.IllegalWordFaultsAsDecoded := by
  intro s c k v hs h0 h1 hd
  obtain ⟨hv, hk⟩ := decodeWord_error_record _ _ _ hd
  dsimp only at hv hk
  subst hv
  exact ⟨rfl, hk, _, step_of_fetch_error s _ hs (fetchInstr_illegal_word s.begin _ h0 h1 hd),
    faultParam_exact k (by omega), faultValue_word _, rfl⟩

/-- Settles O16: the operand word at MEM_DEPTH is the first outside the array, and its number and address fit the record. -/
theorem operandWordOutsideTheArrayFaults : Obligations.OperandWordOutsideTheArrayFaults := by
  intro s d hc hs h0 h1 hd hover
  obtain ⟨j, hj, he, hf⟩ := fetchInstr_truncated s.begin d h0 h1 hd hover
  rw [State.begin_config] at hf
  have hdepth := hc.2
  refine ⟨_, step_of_fetch_error s _ hs hf, ?_, faultValue_exact s.config.memDepth (by omega), rfl⟩
  rw [raiseFault_faultParam, faultParam_exact j hj]
  exact eq_sub_of_add_eq' he

/-! ## A step that runs its instruction -/

theorem step_of_fetch_ok (s : State) (i : Instr) (hs : s.status.terminal = false) (hf : fetchInstr s.begin = .ok i) :
    step s = exec i s.begin := by
  obtain ⟨t, ht⟩ := exec_answers i s.begin
  rw [ht]
  exact (step_next s t).2 (.inr (.inr ⟨hs, i, hf, ht⟩))

/-- An instruction is its opcode with its parameters (R80). -/
theorem instr_eq_of_shape_params (i j : Instr) (hshape : shapeOf i = shapeOf j) (hparams : instrParams i = instrParams j) :
    i = j := by
  rw [← buildInstr_shapeOf i [], hshape, hparams, buildInstr_shapeOf]

theorem shapeOf_buildInstr_congr (d : Decoded) (raw raw' : Nat → Word) :
    shapeOf (buildInstr d raw) = shapeOf (buildInstr d raw') := by
  unfold buildInstr
  cases d.op <;> rfl

/-- Operand assembly reads the operand words of the parameters the opcode has, and no others (R87). -/
theorem buildInstr_congr_raw (d : Decoded) (raw raw' : Nat → Word)
    (h : ∀ k, 1 ≤ k → k < opLen d.op → raw k = raw' k) : buildInstr d raw = buildInstr d raw' := by
  refine instr_eq_of_shape_params _ _ (shapeOf_buildInstr_congr d raw raw') ?_
  rw [instrParams_buildInstr, instrParams_buildInstr]
  refine List.map_congr_left fun k hk => ?_
  rw [List.mem_range'_1] at hk
  rw [h k hk.1 (by omega)]

/-- The decoder takes all of a sequence of words when it is a legal word with its L(op) - 1 operand words. -/
theorem decode_whole (hd : HighDigits) (ws : List Word) (i : Instr) (h : decode hd ws = .ok (i, [])) :
    ∃ d, decodeWord hd (ws.getD 0 0) = .ok d ∧ ws.length = opLen d.op ∧ i = buildInstr d (fun k => ws.getD k 0) := by
  cases ws with
  | nil => simp [decode] at h
  | cons w rest =>
    rcases hw : decodeWord hd w with f | d
    · simp [decode, hw] at h
    simp only [decode, hw] at h
    split_ifs at h with hshort
    simp only [Except.ok.injEq, Prod.mk.injEq, List.drop_eq_nil_iff] at h
    obtain ⟨rfl, hall⟩ := h
    have hpos := (opLen_pos d.op).1
    refine ⟨d, hw, by rw [List.length_cons]; omega, buildInstr_congr_raw d _ _ fun k hk _ => ?_⟩
    obtain ⟨j, rfl⟩ := Nat.exists_eq_add_of_le' hk
    rfl

/-- Settles O11: the words at pc are the instruction word and the operand words that the fetch assembles. -/
theorem stepRunsTheDecodedInstruction : Obligations.StepRunsTheDecodedInstruction := by
  intro s i ws hs h0 hfits hwords hdec
  obtain ⟨d, hd, hlen, rfl⟩ := decode_whole _ ws i hdec
  have hpos := (opLen_pos d.op).1
  refine step_of_fetch_ok s _ hs ((fetchInstr_ok s.begin _).2 ⟨h0, d, ?_, ?_, ?_⟩)
  · rw [← hwords 0 (by omega)] at hd
    exact hd
  · rw [← hlen]
    exact hfits
  · exact buildInstr_congr_raw d _ _ fun k _ hk => (hwords k (by omega)).symm

end Sys2Proof.Machine
end

section
/-! PROOFS. STEP, RUN and the terminal statuses (spec/40_engine.md R118 to R125): which step ends at ProducedOutput, what
a turn answers, and what leaves Halted and Faulted. -/

namespace Sys2Proof.Machine

/-! ## The step of an Output -/

/-- Only an Output that is to stop leaves ProducedOutput (spec/42_io.md R170). -/
theorem Effect.output_of_producedOutput {i : Instr} {s t : State} (he : Effect i s t) (hs : s.status ≠ .producedOutput)
    (ht : t.status = .producedOutput) :
    ∃ p v, i = .out p ∧ readParam s 1 p = .ok v ∧ s.stopOnOutput = true ∧ t.out = some v := by
  cases he with
  | output p v hi hr =>
    by_cases hstop : s.stopOnOutput = true
    · exact ⟨p, v, hi, hr, hstop, by simp [hstop]⟩
    · simp [hstop, hs] at ht
  | input p d v _ _ _ => simp [hs] at ht
  | addressFault | overflow | suspend | halt => cases ht
  | store | jump | fallThrough | adjust => exact absurd ht hs

/-- A step that leaves ProducedOutput ran an Output that is to stop, and latched its value. -/
theorem step_output_of_producedOutput (s t : State) (h : step s = .next t) (hs : s.status.terminal = false)
    (ht : t.status = .producedOutput) :
    ∃ p v, fetchInstr s.begin = .ok (.out p) ∧ readParam s.begin 1 p = .ok v ∧ s.stopOnOutput = true ∧
      t.out = some v := by
  rcases (step_next s t).1 h with ⟨hterm, -⟩ | ⟨-, f, -, rfl⟩ | ⟨-, i, hf, he⟩
  · simp [hs] at hterm
  · cases ht
  · obtain ⟨p, v, rfl, hr, hstop, hout⟩ := (exec_effect i _ t he).output_of_producedOutput (by simp) ht
    exact ⟨p, v, hf, hr, hstop, hout⟩

/-- The step of an Output that reads its operand emits, latches and advances; then it stops or not (R170). -/
theorem stepState_output (s : State) (p : Param) (v : Word) (hs : s.status.terminal = false)
    (hf : fetchInstr s.begin = .ok (.out p)) (hr : readParam s.begin 1 p = .ok v) :
    stepState s = if s.stopOnOutput then { (emit v s.begin).advance 2 with status := .producedOutput }
      else (emit v s.begin).advance 2 := by
  apply stepState_of_next
  rw [step_of_fetch_ok s _ hs hf]
  exact (execOut_next p s.begin _).2 (.inr ⟨v, hr, rfl⟩)

/-! ## What a STEP or a RUN answers -/

/-- R119, R120: `out_val` goes with ProducedOutput and with no other status. -/
theorem outputValue_eq_some (s : State) (x : RespValue) :
    outputValue s = some x ↔ s.status = .producedOutput ∧ ∃ v, s.out = some v ∧ x = .word v := by
  unfold outputValue
  split_ifs with h
  · simp [h, eq_comm]
  · simp [h]

theorem outputValue_terminal (s : State) (h : s.status.terminal = true) : outputValue s = none := by
  have hne : s.status ≠ .producedOutput := by rintro e; simp [e] at h
  simp [outputValue, hne]

/-- R122. -/
theorem runCode_eq_inputUnderflow (stopOnInput : Bool) (status : Status) :
    runCode stopOnInput status = .inputUnderflow ↔ status = .awaitingInput ∧ stopOnInput = false := by
  simp [runCode]

/-- R120. -/
theorem runCode_eq_ok (stopOnInput : Bool) (status : Status) :
    runCode stopOnInput status = .ok ↔ ¬ (status = .awaitingInput ∧ stopOnInput = false) := by
  simp only [runCode]
  split_ifs with h <;> simp [h]

/-- Settles O54: STEP answers from the state its one step leaves, and without a RUN every completed Output stops. -/
theorem stepCommandRunsOneStep : Obligations.StepCommandRunsOneStep := by
  intro s hidle
  refine ⟨stepState s, _, stepCommand_eq s hidle, step_stepState s, rfl, rfl, rfl, rfl, rfl, fun hs => ?_, fun hs x => ?_⟩
  · have hstay := stepState_terminal s hs
    exact ⟨hstay, by rw [hstay]; exact outputValue_terminal s hs⟩
  · change outputValue (stepState s) = some x ↔ _
    rw [outputValue_eq_some]
    constructor
    · rintro ⟨hst, v, hout, rfl⟩
      obtain ⟨p, w, hf, hr, -, hw⟩ := step_output_of_producedOutput s _ (step_stepState s) hs hst
      obtain rfl : v = w := Option.some.inj (hout.symm.trans hw)
      exact ⟨p, v, hf, hr, rfl⟩
    · rintro ⟨p, v, hf, hr, rfl⟩
      have hstop : s.stopOnOutput = true := by simp [State.stopOnOutput, hidle]
      simp [stepState_output s p v hs hf hr, hstop]

/-- Settles O55: a turn is one step, and its answer is that of the status the step leaves. -/
theorem runStepsUntilItStops : Obligations.RunStepsUntilItStops := by
  intro s si so hrun _
  refine ⟨stepState s, step_stepState s, fun hgo => ?_, fun hstop => ?_⟩
  · rw [tick_run s si so hrun, if_pos hgo]
  · rw [tick_run s si so hrun, if_neg hstop]
    refine ⟨_, rfl, rfl, runCode_eq_inputUnderflow _ _, runCode_eq_ok _ _, fun v => ?_⟩
    exact (outputValue_eq_some _ _).trans (by simp)

/-- A turn of a RUN leaves the status its step leaves. -/
theorem tick_run_status (s : State) (si so : Bool) (h : s.activity = .run si so) :
    (tick s).1.status = (stepState s).status := by
  rw [tick_run s si so h]
  split_ifs <;> rfl

/-- Settles O56: an Output that is not to stop leaves Running, and only one that is to stop leaves ProducedOutput. -/
theorem runWithoutStopOnOutputGoesOn : Obligations.RunWithoutStopOnOutputGoesOn := by
  intro s si hrun
  have hstop : s.stopOnOutput = false := by simp [State.stopOnOutput, hrun]
  constructor
  · intro p v hs hf hr
    have hstep := stepState_output s p v hs hf hr
    rw [hstop, if_neg Bool.false_ne_true] at hstep
    rw [tick_run s si false hrun, hstep]
    exact ⟨_, rfl, rfl, hrun, rfl, rfl⟩
  · rw [tick_run_status s si false hrun]
    intro ht
    cases hs : s.status.terminal with
    | true =>
      rw [stepState_terminal s hs] at ht
      simp [ht] at hs
    | false =>
      obtain ⟨p, v, -, -, hstop', -⟩ := step_output_of_producedOutput s _ (step_stepState s) hs ht
      simp [hstop] at hstop'

/-! ## Halted and Faulted -/

theorem State.withActivity_idle (s : State) (h : s.activity = .idle) : { s with activity := .idle } = s := by rw [← h]

/-- A turn in a terminal status only ends the command in progress (R118). -/
theorem tick_terminal (s : State) (h : s.status.terminal = true) : (tick s).1 = { s with activity := .idle } := by
  have hne : s.status ≠ .running := by rintro e; simp [e] at h
  cases ha : s.activity with
  | idle => rw [tick, ha, State.withActivity_idle s ha]
  | step => simp [tick, ha, stepState_terminal s h, finishCommand]
  | run si so => rw [tick_run s si so ha, stepState_terminal s h, if_neg hne]; rfl

/-- A RUN in a terminal status answers OK with that status (R118, R120). -/
theorem tick_run_terminal (s : State) (si so : Bool) (h : s.status.terminal = true) (ha : s.activity = .run si so) :
    tick s = ({ s with activity := .idle }, some (respond .ok none s)) := by
  have hne : s.status ≠ .running := by rintro e; simp [e] at h
  have hcode : runCode si s.status = .ok := (runCode_eq_ok _ _).2 (by rintro ⟨e, -⟩; simp [e] at h)
  rw [tick_run s si so ha, stepState_terminal s h, if_neg hne, hcode, finishCommand, outputValue_terminal s h]

@[simp] theorem poke_status (a : Int) (v : Word) (s : State) : (poke a v s).1.status = s.status := by
  unfold poke
  cases hostAddr s.config a <;> rfl

@[simp] theorem feedInput_status (v : Word) (s : State) : (feedInput v s).1.status = s.status := by
  unfold feedInput
  cases s.feed <;> rfl

/-- An accepted command keeps status, or is a LOAD or a RESTORE (spec/45_host.md R222, R227). -/
theorem accept_status_cases (c : Command) (s : State) :
    (accept c s).1.status = s.status ∨ (∃ program, c = .load program) ∨ ∃ image, c = .restore image := by
  cases c with
  | load program => exact .inr (.inl ⟨program, rfl⟩)
  | restore image => exact .inr (.inr ⟨image, rfl⟩)
  | writeMemory a v => exact .inl (poke_status a v s)
  | feed v => exact .inl (feedInput_status v s)
  | step | run | readMemory | snapshot | takeOutput => exact .inl rfl

/-- From a terminal status a move keeps status, or is reset, LOAD or RESTORE (R118, R259). -/
theorem applyMove_status_cases (m : Move) (s : State) (hs : s.status.terminal = true) :
    (applyMove m s).status = s.status ∨ m = .reset ∨ m = .resetInStep ∨ (∃ program, m = .command (.load program)) ∨
      ∃ image, m = .command (.restore image) := by
  cases m with
  | reset => exact .inr (.inl rfl)
  | resetInStep => exact .inr (.inr (.inl rfl))
  | connect source => exact .inl rfl
  | tick => exact .inl (by rw [applyMove, tick_terminal s hs])
  | command c =>
    by_cases ha : s.activity = .idle
    · rw [applyMove, issue_idle c s ha]
      rcases accept_status_cases c s with hkept | ⟨program, rfl⟩ | ⟨image, rfl⟩
      · exact .inl hkept
      · exact .inr (.inr (.inr (.inl ⟨program, rfl⟩)))
      · exact .inr (.inr (.inr (.inr ⟨image, rfl⟩)))
    · exact .inl (by rw [applyMove, issue_busy c s ha])

/-- Reset inside a step is the reset of an idle core, or of the state the step leaves (R280). -/
theorem resetInStep_eq (s : State) : ∃ u, resetInStep s = resetPort u := by
  by_cases h : s.activity = .idle
  · exact ⟨s, by simp [resetInStep, h]⟩
  · exact ⟨_, resetInStep_busy s h⟩

/-- A LOAD that fits starts the program afresh (R222). -/
theorem loadProgram_fits (program : List Word) (s : State) (h : program.length ≤ s.config.memDepth) :
    (loadProgram program s).1 = freshState (Memory.image program 0) 0 0 s := by
  simp [loadProgram, not_lt.2 h]

/-- Settles O13: no step is done in a terminal status, and reset, LOAD and RESTORE all leave a fresh register image. -/
theorem terminalStatusIsLeftOnlyByLoadRestoreReset : Obligations.TerminalStatusIsLeftOnlyByLoadRestoreReset := by
  intro s hs
  have hstay := stepState_terminal s hs
  refine ⟨(step_next s s).2 (.inl ⟨hs, rfl⟩), fun hidle => ⟨?_, fun si so => ?_⟩, fun m hne => ?_, fun m hm => ?_⟩
  · rw [stepCommand_eq s hidle, hstay, outputValue_terminal s hs]
  · rw [issue_idle _ s hidle]
    have hturn := tick_run_terminal { s with activity := .run si so } si so hs rfl
    exact hturn.trans (Prod.ext (State.withActivity_idle s hidle) rfl)
  · exact (applyMove_status_cases m s hs).resolve_left hne
  · rcases hm with rfl | rfl | ⟨hidle, ⟨program, rfl, hfits⟩ | ⟨image, rfl⟩⟩
    · exact ⟨rfl, rfl, rfl, rfl⟩
    · obtain ⟨u, hu⟩ := resetInStep_eq s
      rw [applyMove, hu]
      exact ⟨rfl, rfl, rfl, rfl⟩
    · rw [applyMove, issue_idle _ s hidle, accept, loadProgram_fits program s hfits]
      exact ⟨rfl, rfl, rfl, rfl⟩
    · rw [applyMove, issue_idle _ s hidle]
      exact ⟨rfl, rfl, rfl, rfl⟩

end Sys2Proof.Machine
end

section
/-! PROOFS. The ALU (spec/41_alu.md): an operation whose exact result is a Word gives that Word (R145), and its
instruction stores it at the resolved write target, advances pc by 4 and changes nothing else (R141 to R144). The exact
result being a Word is said throughout as `r.toInt = aluExact op a.toInt b.toInt` for some Word `r`. -/

namespace Sys2Proof.Machine

/-! ## The ALU block -/

theorem aluBlock_ovf (op : AluOp) (a b : Word) :
    (aluBlock op a b).1 = true ↔
      ¬ (minWord ≤ aluExact op a.toInt b.toInt ∧ aluExact op a.toInt b.toInt ≤ maxWord) := by
  rw [← inWord_iff]
  unfold aluBlock aluOvf
  cases inWord (aluExact op a.toInt b.toInt) <;> simp

theorem aluBlock_of_word (op : AluOp) (a b : Word)
    (h : minWord ≤ aluExact op a.toInt b.toInt ∧ aluExact op a.toInt b.toInt ≤ maxWord) :
    aluBlock op a b = (false, some (BitVec.ofInt 64 (aluExact op a.toInt b.toInt))) := by
  simp [aluBlock, aluOvf, (inWord_iff _).2 h]

/-- The block answers a Word exactly where that Word is the exact result. -/
theorem aluBlock_exact (op : AluOp) (a b r : Word) :
    aluBlock op a b = (false, some r) ↔ r.toInt = aluExact op a.toInt b.toInt := by
  constructor
  · intro h
    have hw := not_not.1 (mt (aluBlock_ovf op a b).2 (by simp [h]))
    rw [aluBlock_of_word op a b hw] at h
    obtain rfl : BitVec.ofInt 64 (aluExact op a.toInt b.toInt) = r := by simpa using h
    exact Word.toInt_ofInt _ hw
  · intro h
    rw [aluBlock_of_word op a b (h ▸ Word.toInt_bounds r), ← h, BitVec.ofInt_toInt]

/-- The Word LessThan answers is its exact result (R143). -/
theorem toInt_lessThan (a b : Word) :
    (if a.toInt < b.toInt then 1 else 0 : Word).toInt = aluExact .lessThan a.toInt b.toInt := by
  simp only [aluExact]
  split_ifs <;> rfl

/-- The Word Equals answers is its exact result (R144). -/
theorem toInt_equals (a b : Word) : (if a = b then 1 else 0 : Word).toInt = aluExact .equals a.toInt b.toInt := by
  simp only [aluExact, Word.toInt_inj]
  split_ifs <;> rfl

/-- Settles O32: whether the exact result is a Word decides `alu_ovf`, and where it is one `alu_r` is that Word. -/
theorem aluBlockIsExactOrSignalsOverflow : Obligations.AluBlockIsExactOrSignalsOverflow := by
  intro a b r
  exact ⟨aluBlock_exact .add a b r, aluBlock_exact .multiply a b r,
    (aluBlock_exact .lessThan a b _).2 (toInt_lessThan a b), (aluBlock_exact .equals a b _).2 (toInt_equals a b),
    aluBlock_ovf .add a b, aluBlock_ovf .multiply a b, rfl, rfl, rfl, rfl⟩

/-! ## The ALU instructions -/

theorem State.read_write_same (s : State) (a : Nat) (v : Word) (hm : s.mem.wf) : (s.write a v).read a = v :=
  Memory.read_write_same s.mem a v hm

theorem State.read_write_other (s : State) (a x : Nat) (v : Word) (h : x ≠ a) : (s.write a v).read x = s.read x :=
  Memory.read_write_other s.mem a x v h

/-- An ALU instruction whose operands resolve and whose exact result is the Word `r` stores `r` (R141 to R144). -/
theorem settle_aluInstr (op : AluOp) (s : State) (p1 p2 p3 : Param) (a b r : Word) (d : Nat) (hm : s.mem.wf)
    (h1 : readParam s 1 p1 = .ok a) (h2 : readParam s 2 p2 = .ok b) (h3 : resolve s 3 p3 = .ok d)
    (hr : r.toInt = aluExact op a.toInt b.toInt) :
    ∃ t, settle s (aluInstr op p1 p2 p3 s) = .next t ∧ t.read d = r ∧ (∀ x, x ≠ d → t.read x = s.read x) ∧
      t.pc = s.pc + 4 ∧ t = { s with mem := t.mem, pc := t.pc } := by
  have hok : aluInstr op p1 p2 p3 s = .ok ((s.write d r).advance 4) :=
    (aluInstr_ok op p1 p2 p3 s _).2
      ⟨a, b, d, h1, h2, h3, hr ▸ Word.toInt_bounds r, by rw [← hr, BitVec.ofInt_toInt]⟩
  refine ⟨(s.write d r).advance 4, (settle_next s _ _).2 (.inl hok), ?_, fun x hx => ?_, rfl, rfl⟩
  · rw [State.read_advance, State.read_write_same s d r hm]
  · rw [State.read_advance, State.read_write_other s d x r hx]

/-- Settles O28: the sum is a Word, so it is what Add stores. -/
theorem addStoresTheExactSum : Obligations.AddStoresTheExactSum := by
  intro s p1 p2 p3 a b d hm h1 h2 h3 hlo hhi
  have hr := Word.toInt_ofInt (a.toInt + b.toInt) ⟨hlo, hhi⟩
  obtain ⟨t, hexec, hread, hframe⟩ := settle_aluInstr .add s p1 p2 p3 a b _ d hm h1 h2 h3 hr
  exact ⟨t, hexec, hread ▸ hr, hframe⟩

/-- Settles O29: the product is a Word, so it is what Multiply stores. -/
theorem multiplyStoresTheExactProduct : Obligations.MultiplyStoresTheExactProduct := by
  intro s p1 p2 p3 a b d hm h1 h2 h3 hlo hhi
  have hr := Word.toInt_ofInt (a.toInt * b.toInt) ⟨hlo, hhi⟩
  obtain ⟨t, hexec, hread, hframe⟩ := settle_aluInstr .multiply s p1 p2 p3 a b _ d hm h1 h2 h3 hr
  exact ⟨t, hexec, hread ▸ hr, hframe⟩

/-- Settles O30: 1 and 0 are Words, so the comparisons store them for all operand values. -/
theorem compareStoresOneOrZero : Obligations.CompareStoresOneOrZero := by
  intro s p1 p2 p3 a b d hm h1 h2 h3
  exact ⟨settle_aluInstr .lessThan s p1 p2 p3 a b _ d hm h1 h2 h3 (toInt_lessThan a b),
    settle_aluInstr .equals s p1 p2 p3 a b _ d hm h1 h2 h3 (toInt_equals a b)⟩

end Sys2Proof.Machine
end

section
/-! PROOFS. Input and Output (spec/42_io.md): what a poll answers (R163, R164), what an Input that resolves its address and
an Output that reads its operand leave (R160, R165, R170), and which instructions a step can have taken a value, emitted
or stopped by (R162, R171, R173). -/

namespace Sys2Proof.Machine

/-! ## The poll -/

theorem pollInput_of_feed {s : State} {v : Word} (h : s.feed = some v) :
    pollInput s = (some v, { s with feed := none }) := by
  simp [pollInput, h]

theorem pollInput_of_source {s : State} {answer : Option Word} {after : InputSource} (hfeed : s.feed = none)
    (hpoll : s.source.poll = (answer, after)) : pollInput s = (answer, { s with source := after }) := by
  simp [pollInput, hfeed, hpoll]

/-- A poll that finds no value in the feed register and has no source to ask leaves everything (R283). -/
theorem pollInput_absent {s : State} (hfeed : s.feed = none) (hsource : s.source = .absent) :
    pollInput s = (none, s) := by
  have hpoll : s.source.poll = (none, s.source) := by rw [hsource]; rfl
  exact pollInput_of_source hfeed hpoll

/-- What a poll answers does not depend on the status. -/
@[simp] theorem pollInput_begin_answer (s : State) : (pollInput s.begin).1 = (pollInput s).1 := by
  rcases pollInput_cases s with ⟨v, hfeed, hpoll⟩ | ⟨hfeed, hpoll⟩
  · rw [hpoll, pollInput_of_feed (s := s.begin) hfeed]
  · rw [hpoll, pollInput_of_source (s := s.begin) hfeed rfl]
    rfl

/-! ## Input -/

theorem exec_inp_of_value {s u : State} {p : Param} {d : Nat} {v : Word} (hd : resolve s 1 p = .ok d)
    (hpoll : pollInput s = (some v, u)) : exec (.inp p) s = .next ((u.write d v).advance 2) :=
  (execInp_next p s _).2 (.inr (.inl ⟨d, v, hd, by rw [hpoll], by rw [hpoll]⟩))

theorem exec_inp_of_no_value {s u : State} {p : Param} {d : Nat} (hd : resolve s 1 p = .ok d)
    (hpoll : pollInput s = (none, u)) : exec (.inp p) s = .next { u with status := .awaitingInput } :=
  (execInp_next p s _).2 (.inr (.inr ⟨d, hd, by rw [hpoll], by rw [hpoll]⟩))

/-- An Input that finds a value changes, beside what the poll changed, the word at its address and pc (R160). -/
theorem exec_inp_stores {s u : State} {p : Param} {d : Nat} {v : Word} (hm : s.mem.wf) (hd : resolve s 1 p = .ok d)
    (hpoll : pollInput s = (some v, u)) :
    ∃ t, exec (.inp p) s = .next t ∧ t.read d = v ∧ (∀ x, x ≠ d → t.read x = s.read x) ∧ t.pc = s.pc + 2 ∧
      t = { u with mem := t.mem, pc := t.pc } := by
  obtain rfl : (pollInput s).2 = u := by rw [hpoll]
  have hmem : (pollInput s).2.mem = s.mem := pollInput_mem s
  refine ⟨_, exec_inp_of_value hd hpoll, ?_, fun x hx => ?_, ?_, rfl⟩
  · rw [State.read_advance, State.read_write_same _ d v (hmem ▸ hm)]
  · rw [State.read_advance, State.read_write_other _ d x v hx, State.read, State.read, hmem]
  · rw [State.advance_pc, State.write_pc, pollInput_pc]; rfl

/-- Settles O33: the poll takes the fed value, and the Input stores it. -/
theorem inputStoresTheFeedRegisterFirst : Obligations.InputStoresTheFeedRegisterFirst := by
  intro s p d v hm hd hfeed
  exact exec_inp_stores hm hd (pollInput_of_feed hfeed)

/-- Settles O34: a listed answer or a free draw is what the source's poll answers, and the Input stores it. -/
theorem inputStoresTheSourcesAnswer : Obligations.InputStoresTheSourcesAnswer := by
  intro s p d v after hm hd hfeed hsource
  have hpoll : s.source.poll = (some v, after) := by
    rcases hsource with ⟨rest, n, hs, rfl⟩ | ⟨n, hs, hanswer, rfl⟩
    · rw [hs]; rfl
    · rw [hs, InputSource.poll, hanswer]
  exact exec_inp_stores hm hd (pollInput_of_source hfeed hpoll)

/-- Settles O35: each of the three sources answers "no value" to the poll, which changes the source at most. -/
theorem inputWithoutAValueOnlySuspends : Obligations.InputWithoutAValueOnlySuspends := by
  intro s p d hd hfeed hsource
  have hanswer : s.source.poll.1 = none := by
    rcases hsource with hs | ⟨rest, n, hs⟩ | ⟨n, hs, hdraw⟩
    · rw [hs]; rfl
    · rw [hs]; rfl
    · rw [hs, InputSource.poll, hdraw]
  exact ⟨_, exec_inp_of_no_value hd (pollInput_of_source hfeed (Prod.ext hanswer rfl)), rfl⟩

/-- Settles O36: the address is resolved before the poll, so the fault comes before it and the write after it. -/
theorem faultingInputTakesNoValue : Obligations.FaultingInputTakesNoValue := by
  intro s t p hm h
  refine ⟨fun f hf => ?_, fun d v hd hv => ?_⟩
  · have hfault : exec (.inp p) s = .next (raiseFault f s) := (execInp_next p s _).2 (.inl ⟨f, hf, rfl⟩)
    obtain rfl : t = raiseFault f s := Host.Outcome.next.inj (h.symm.trans hfault)
    exact ⟨rfl, rfl, rfl, rfl, rfl⟩
  · obtain ⟨u, hexec, hread, -⟩ := exec_inp_stores hm hd (Prod.ext hv rfl)
    obtain rfl : t = u := Host.Outcome.next.inj (h.symm.trans hexec)
    exact hread

/-! ## Output -/

/-- An Output that reads its operand emits, latches and advances; the stop flag decides the status alone (R170). -/
theorem exec_out_emits {s : State} {p : Param} {v : Word} (h : readParam s 1 p = .ok v) :
    exec (.out p) s = .next { (emit v s).advance 2 with
      status := if s.stopOnOutput then .producedOutput else s.status } :=
  (execOut_next p s _).2 (.inr ⟨v, h, by split_ifs <;> rfl⟩)

/-- Settles O38: the stop flag is true in a STEP and the RUN's own flag in a RUN. -/
theorem outputLatchesEmitsAndAdvances : Obligations.OutputLatchesEmitsAndAdvances := by
  intro s p v hr
  refine ⟨_, exec_out_emits hr, rfl, rfl, rfl, fun ha => ?_, fun si ha => ?_, fun si ha => ?_, rfl⟩
  · rcases ha with ha | ha <;> simp [State.stopOnOutput, ha]
  · simp [State.stopOnOutput, ha]
  · simp [State.stopOnOutput, ha]

/-! ## Taking a value and emitting one, in a step -/

/-- An instruction keeps the feed register and the source, or is an Input whose address resolved and leaves them as its
poll did (R162). -/
theorem Effect.feed_source_cases {i : Instr} {s t : State} (he : Effect i s t) :
    (t.feed = s.feed ∧ t.source = s.source) ∨
    ∃ p d, i = .inp p ∧ resolve s 1 p = .ok d ∧ t.feed = (pollInput s).2.feed ∧ t.source = (pollInput s).2.source := by
  cases he with
  | input p d v hi hd _ => exact .inr ⟨p, d, hi, hd, rfl, rfl⟩
  | suspend p d hi hd _ => exact .inr ⟨p, d, hi, hd, rfl, rfl⟩
  | output p v _ _ => exact .inl (by split_ifs <;> exact ⟨rfl, rfl⟩)
  | _ => exact .inl ⟨rfl, rfl⟩

/-- An instruction keeps the latch and the sink, or is an Output that latched and emitted the value it read (R170). -/
theorem Effect.out_sink_cases {i : Instr} {s t : State} (he : Effect i s t) :
    (t.out = s.out ∧ t.sink = s.sink) ∨
    ∃ p v, i = .out p ∧ readParam s 1 p = .ok v ∧ t.out = some v ∧ t.sink = s.sink ++ [v] := by
  cases he with
  | output p v hi hr => exact .inr ⟨p, v, hi, hr, by split_ifs <;> exact ⟨rfl, rfl⟩⟩
  | input | suspend => exact .inl (by rw [pollInput_frame s]; exact ⟨rfl, rfl⟩)
  | _ => exact .inl ⟨rfl, rfl⟩

/-- A step keeps the feed register and the source, or polled by an Input whose address resolved. -/
theorem step_feed_source_cases (s t : State) (h : step s = .next t) :
    (t.feed = s.feed ∧ t.source = s.source) ∨
    ∃ p d, fetchInstr s.begin = .ok (.inp p) ∧ resolve s.begin 1 p = .ok d ∧
      t.feed = (pollInput s.begin).2.feed ∧ t.source = (pollInput s.begin).2.source := by
  rcases (step_next s t).1 h with ⟨-, rfl⟩ | ⟨-, f, -, rfl⟩ | ⟨-, i, hf, he⟩
  · exact .inl ⟨rfl, rfl⟩
  · exact .inl ⟨rfl, rfl⟩
  · rcases (exec_effect i _ t he).feed_source_cases with hkept | ⟨p, d, rfl, hd, hpoll⟩
    · exact .inl hkept
    · exact .inr ⟨p, d, hf, hd, hpoll⟩

/-- Settles O22: only an Input polls, and its poll takes the fed value or, with none fed, the source's answer. -/
theorem onlyInputTakesAValue : Obligations.OnlyInputTakesAValue := by
  intro s t h
  rcases step_feed_source_cases s t h with ⟨hfeed, hsource⟩ | ⟨p, d, hf, hd, hfeed, hsource⟩
  · exact ⟨fun hne => absurd hsource (hne.resolve_left (not_not.2 hfeed)), fun hne => absurd hfeed hne,
      fun hne => absurd hsource hne⟩
  · refine ⟨fun _ => ⟨p, d, hf, hd⟩, ?_⟩
    rcases pollInput_cases s.begin with ⟨v, -, hpoll⟩ | ⟨hnone, hpoll⟩ <;> rw [hpoll] at hfeed hsource
    · exact ⟨fun _ => ⟨hfeed, hsource⟩, fun hne => absurd hsource hne⟩
    · exact ⟨fun hne => absurd hfeed hne, fun _ => ⟨hnone, hfeed.trans hnone, hsource⟩⟩

/-- Settles O23: a terminal status and a fault on the way emit nothing, and neither does any other instruction. -/
theorem onlyOutputEmits : Obligations.OnlyOutputEmits := by
  intro s t h hne
  rcases (step_next s t).1 h with ⟨-, rfl⟩ | ⟨-, f, -, rfl⟩ | ⟨-, i, hf, he⟩
  · simp at hne
  · simp at hne
  · rcases (exec_effect i _ t he).out_sink_cases with ⟨hout, hsink⟩ | ⟨p, v, rfl, hr, hemit⟩
    · exact absurd hsink (hne.resolve_left (not_not.2 hout))
    · exact ⟨p, v, hf, hr, hemit⟩

/-! ## The suspension points -/

/-- Only a Halt leaves Halted (spec/43_control.md R192). -/
theorem Effect.hlt_of_halted {i : Instr} {s t : State} (he : Effect i s t) (hs : s.status ≠ .halted)
    (ht : t.status = .halted) : i = .hlt := by
  cases he with
  | halt hi => exact hi
  | output =>
    split_ifs at ht
    exact absurd ht hs
  | input => simp [hs] at ht
  | addressFault | overflow | suspend => cases ht
  | store | jump | fallThrough | adjust => exact absurd ht hs

/-- Only an Input that finds no value leaves AwaitingInput (R165). -/
theorem Effect.inp_of_awaitingInput {i : Instr} {s t : State} (he : Effect i s t) (hs : s.status ≠ .awaitingInput)
    (ht : t.status = .awaitingInput) :
    ∃ p d, i = .inp p ∧ resolve s 1 p = .ok d ∧ (pollInput s).1 = none := by
  cases he with
  | suspend p d hi hd hv => exact ⟨p, d, hi, hd, hv⟩
  | output =>
    split_ifs at ht
    exact absurd ht hs
  | input => simp [hs] at ht
  | addressFault | overflow | halt => cases ht
  | store | jump | fallThrough | adjust => exact absurd ht hs

/-- A step that does not fault has run the instruction it fetched. -/
theorem step_effect_of_not_faulted {s t : State} (h : step s = .next t) (hs : s.status.terminal = false)
    (ht : t.status ≠ .faulted) : ∃ i, fetchInstr s.begin = .ok i ∧ Effect i s.begin t := by
  rcases (step_next s t).1 h with ⟨hterm, -⟩ | ⟨-, f, -, rfl⟩ | ⟨-, i, hf, he⟩
  · simp [hs] at hterm
  · exact absurd rfl ht
  · exact ⟨i, hf, exec_effect i _ t he⟩

theorem step_eq_of_exec {s t u : State} {i : Instr} (h : step s = .next t) (hs : s.status.terminal = false)
    (hf : fetchInstr s.begin = .ok i) (he : exec i s.begin = .next u) : t = u := by
  rw [step_of_fetch_ok s i hs hf, he] at h
  exact (Host.Outcome.next.inj h).symm

theorem step_halted_iff {s t : State} (h : step s = .next t) (hs : s.status.terminal = false) :
    t.status = .halted ↔ fetchInstr s.begin = .ok .hlt := by
  constructor
  · intro ht
    obtain ⟨i, hf, he⟩ := step_effect_of_not_faulted h hs (by simp [ht])
    obtain rfl := he.hlt_of_halted (by simp) ht
    exact hf
  · intro hf
    rw [step_eq_of_exec h hs hf rfl]

/-- R165. -/
theorem step_awaitingInput_iff {s t : State} (h : step s = .next t) (hs : s.status.terminal = false) :
    t.status = .awaitingInput ↔
      ∃ p d, fetchInstr s.begin = .ok (.inp p) ∧ resolve s.begin 1 p = .ok d ∧ (pollInput s).1 = none := by
  constructor
  · intro ht
    obtain ⟨i, hf, he⟩ := step_effect_of_not_faulted h hs (by simp [ht])
    obtain ⟨p, d, rfl, hd, hv⟩ := he.inp_of_awaitingInput (by simp) ht
    exact ⟨p, d, hf, hd, by rwa [pollInput_begin_answer] at hv⟩
  · rintro ⟨p, d, hf, hd, hv⟩
    rw [← pollInput_begin_answer] at hv
    rw [step_eq_of_exec h hs hf (exec_inp_of_no_value hd (Prod.ext hv rfl))]

/-- R170. -/
theorem step_producedOutput_iff {s t : State} (h : step s = .next t) (hs : s.status.terminal = false) :
    t.status = .producedOutput ↔
      ∃ p v, fetchInstr s.begin = .ok (.out p) ∧ readParam s.begin 1 p = .ok v ∧ s.stopOnOutput = true := by
  constructor
  · intro ht
    obtain ⟨p, v, hf, hr, hstop, -⟩ := step_output_of_producedOutput s t h hs ht
    exact ⟨p, v, hf, hr, hstop⟩
  · rintro ⟨p, v, hf, hr, hstop⟩
    rw [step_eq_of_exec h hs hf (exec_out_emits hr)]
    exact if_pos hstop

/-- A command issued leaves the status it found, or Running (spec/45_host.md R222, R227). -/
theorem issue_status_cases (c : Command) (s : State) :
    (issue c s).1.status = s.status ∨ (issue c s).1.status = .running := by
  by_cases ha : s.activity = .idle
  · rw [issue_idle c s ha]
    rcases accept_status_cases c s with hkept | ⟨program, rfl⟩ | ⟨image, rfl⟩
    · exact .inl hkept
    · rw [accept, loadProgram]
      split_ifs
      · exact .inl rfl
      · exact .inr rfl
    · exact .inr rfl
  · exact .inl (by rw [issue_busy c s ha])

/-- Every move but a turn of a command in progress leaves the status it found, or Running. -/
theorem applyMove_status_kept_or_running (m : Move) (s : State) (hturn : ¬ (m = .tick ∧ s.activity ≠ .idle)) :
    (applyMove m s).status = s.status ∨ (applyMove m s).status = .running := by
  cases m with
  | command c => exact issue_status_cases c s
  | tick =>
    have ha : s.activity = .idle := by simpa using hturn
    exact .inl (by simp [applyMove, tick, ha])
  | reset => exact .inr rfl
  | resetInStep =>
    obtain ⟨u, hu⟩ := resetInStep_eq s
    exact .inr (by rw [applyMove, hu, resetPort_status])
  | connect source => exact .inl rfl

/-- Settles O20: each status a step can stop in belongs to one instruction, and every other move keeps the status or
leaves Running. -/
theorem suspensionPointsAreExactlyTwo : Obligations.SuspensionPointsAreExactlyTwo := by
  refine ⟨fun s t hs h => ⟨step_halted_iff h hs, step_awaitingInput_iff h hs, step_producedOutput_iff h hs⟩,
    fun s m hsusp hne => ?_⟩
  by_contra hturn
  have hrun := (applyMove_status_kept_or_running m s hturn).resolve_left hne
  simp [hrun] at hsusp

/-! ## Resuming a suspended Input -/

/-- The step of an Input with nothing fed and no source only suspends (R165). -/
theorem stepState_inp_without_value {s : State} {p : Param} {d : Nat} (hs : s.status.terminal = false)
    (hf : fetchInstr s.begin = .ok (.inp p)) (hd : resolve s.begin 1 p = .ok d) (hfeed : s.feed = none)
    (hsource : s.source = .absent) : stepState s = { s with status := .awaitingInput } := by
  apply stepState_of_next
  rw [step_of_fetch_ok s _ hs hf]
  exact exec_inp_of_no_value (u := s.begin) hd (pollInput_absent hfeed hsource)

/-- FEED fills an empty feed register and does nothing else (spec/45_host.md R230). -/
theorem issue_feed_empty {s : State} (v : Word) (ha : s.activity = .idle) (hfeed : s.feed = none) :
    (issue (.feed v) s).1 = { s with feed := some v } := by
  rw [issue_idle _ s ha]
  simp [accept, feedInput, hfeed]

/-- The step of an Input with a value fed stores it and is Running again (R160, R166). -/
theorem stepState_inp_fed {s : State} {p : Param} {d : Nat} {v : Word} (hm : s.mem.wf)
    (hs : s.status.terminal = false) (hf : fetchInstr s.begin = .ok (.inp p)) (hd : resolve s.begin 1 p = .ok d)
    (hfeed : s.feed = some v) :
    ∃ u, stepState s = u ∧ u.read d = v ∧ (∀ x, x ≠ d → u.read x = s.read x) ∧ u.pc = s.pc + 2 ∧
      u = { s with mem := u.mem, pc := u.pc, status := .running, feed := none } := by
  obtain ⟨u, hexec, hstored⟩ := exec_inp_stores (s := s.begin) hm hd (pollInput_of_feed hfeed)
  exact ⟨u, stepState_of_next s u ((step_of_fetch_ok s _ hs hf).trans hexec), hstored⟩

/-- Settles O37: neither the suspension nor the FEED changes what the next step fetches and resolves. -/
theorem suspendedInputResumesWithTheFedValue : Obligations.SuspendedInputResumesWithTheFedValue := by
  intro s p d v hm hs ha hf hd hfeed hsource t
  have hstep : (stepCommand s).1 = t := by
    rw [stepCommand_eq s ha]
    exact stepState_inp_without_value hs hf hd hfeed hsource
  have hagain : (stepCommand t).1 = t := by
    rw [stepCommand_eq t ha]
    exact stepState_inp_without_value (s := t) rfl hf hd hfeed hsource
  have hfed : (issue (.feed v) t).1 = { t with feed := some v } := issue_feed_empty v ha hfeed
  obtain ⟨u, hu, hread, hother, hpc, hframe⟩ :=
    stepState_inp_fed (s := { t with feed := some v }) hm rfl hf hd rfl
  refine ⟨hstep, hagain, hfed, u, ?_, hread, hother, hpc, ?_⟩
  · rw [hfed, stepCommand_eq { t with feed := some v } ha]
    exact hu
  · rw [← hfeed] at hframe
    exact hframe

end Sys2Proof.Machine
end

section
/-! PROOFS. Control transfer (spec/43_control.md): both jumps are one `jumpInstr` (R190, R191), which resolves its two
parameters and then selects pc (R193, R194); Halt (R192). -/

namespace Sys2Proof.Machine

/-! ## A jump that reads both parameters -/

theorem Word.toInt_eq_zero (a : Word) : a.toInt = 0 ↔ a = 0 := Word.toInt_inj a 0

/-- A jump that reads both its operands changes pc alone, as its condition c selects (R193). -/
theorem settle_jumpInstr_selects {taken : Word → Bool} {c : Prop} [Decidable c] {s : State} {p1 p2 : Param} {a v : Word}
    (h1 : readParam s 1 p1 = .ok a) (h2 : readParam s 2 p2 = .ok v) (hc : taken a = true ↔ c) :
    settle s (jumpInstr taken p1 p2 s) = .next { s with pc := if c then v else s.pc + 3 } := by
  have hjump := (jumpInstr_ok taken p1 p2 s _).2 ⟨a, v, h1, h2, rfl⟩
  refine (settle_next s _ _).2 (.inl (hjump.trans (congrArg Except.ok ?_)))
  simp only [hc]
  split_ifs <;> rfl

/-- Settles O39: only the Word 0 has the value 0, so testing the Word tests its value. -/
theorem jumpIfTrueSelectsThePc : Obligations.JumpIfTrueSelectsThePc := by
  intro s p1 p2 a v h1 h2
  exact settle_jumpInstr_selects h1 h2 (by rw [bne_iff_ne, ne_eq, ne_eq, Word.toInt_eq_zero])

/-- Settles O40, by the same selection with the condition inverted. -/
theorem jumpIfFalseSelectsThePc : Obligations.JumpIfFalseSelectsThePc := by
  intro s p1 p2 a v h1 h2
  exact settle_jumpInstr_selects h1 h2 (by rw [beq_iff_eq, Word.toInt_eq_zero])

/-! ## A jump that faults -/

/-- Whichever way the condition goes, both jumps run the shared rule. -/
theorem exec_jump_eq {i : Instr} {p1 p2 : Param} (hi : i = .jt p1 p2 ∨ i = .jf p1 p2) (s : State) :
    ∃ taken, exec i s = settle s (jumpInstr taken p1 p2 s) := by
  rcases hi with rfl | rfl <;> exact ⟨_, rfl⟩

/-- A fault of either parameter is the jump's, p1's first (R194). -/
theorem exec_jump_fault {i : Instr} {p1 p2 : Param} {s : State} {f : FaultInfo} (hi : i = .jt p1 p2 ∨ i = .jf p1 p2)
    (hf : resolve s 1 p1 = .error f ∨ ∃ a, readParam s 1 p1 = .ok a ∧ resolve s 2 p2 = .error f) :
    exec i s = .next (raiseFault f s) := by
  obtain ⟨taken, hexec⟩ := exec_jump_eq hi s
  rw [hexec, (jumpInstr_error taken p1 p2 s f).2 hf]
  rfl

/-- The fault of a parameter whose address is outside the array, on the side it lies (R112, R114). -/
def addressFault (s : State) (k : Nat) (p : Param) : FaultInfo :=
  ⟨if paramAddr s k p < 0 then .negativeAddress else .addressOutOfRange, k, paramAddr s k p⟩

theorem resolve_outside {s : State} {k : Nat} {p : Param}
    (h : ¬ (0 ≤ paramAddr s k p ∧ paramAddr s k p < s.config.memDepth)) :
    resolve s k p = .error (addressFault s k p) := by
  rw [resolve_error, addressFault]
  by_cases hneg : paramAddr s k p < 0
  · exact .inl ⟨hneg, by rw [if_pos hneg]⟩
  · exact .inr ⟨by omega, by omega, by rw [if_neg hneg]⟩

/-- The record of an address fault holds the address exactly (R26). -/
theorem addressFault_value_exact (s : State) {k : Nat} (p : Param) (hk : k ≤ 3) :
    (raiseFault (addressFault s k p) s).faultValue.toInt = paramAddr s k p :=
  faultValue_exact _ (paramAddr_bounds s k p hk)

/-- Settles O41: the condition has no part in the fault of either parameter. -/
theorem jumpResolvesBothParameters : Obligations.JumpResolvesBothParameters := by
  intro s p1 p2 i hi
  refine ⟨fun hout => ?_, fun a h1 hout => ?_⟩
  · exact ⟨_, exec_jump_fault hi (.inl (resolve_outside hout)), rfl, rfl,
      addressFault_value_exact s p1 (by decide), rfl⟩
  · exact ⟨_, exec_jump_fault hi (.inr ⟨a, h1, resolve_outside hout⟩), rfl, rfl,
      addressFault_value_exact s p2 (by decide), rfl⟩

/-! ## Halt -/

/-- Settles O42: it is R192 as the model states it. -/
theorem haltOnlySetsStatus : Obligations.HaltOnlySetsStatus := fun _ => rfl

end Sys2Proof.Machine
end

section
/-! PROOFS. AdjustRelativeBase (spec/44_relative_base.md): the two ends of an instruction that reads its operand (R210,
R212), and the addresses Relative parameters name afterwards (R211). That the exact sum is a Word is said as
`r.toInt = s.rb.toInt + v.toInt` for some Word `r`. -/

namespace Sys2Proof.Machine

/-! ## An AdjustRelativeBase that reads its operand -/

/-- A sum that is the Word `r` goes to rb, and pc advances by 2 (R210). -/
theorem exec_arb_adjusts {s : State} {p : Param} {v r : Word} (hread : readParam s 1 p = .ok v)
    (hr : r.toInt = s.rb.toInt + v.toInt) : exec (.arb p) s = .next { s with rb := r, pc := s.pc + 2 } := by
  have hcheck : checkResult s 1 (s.rb.toInt + v.toInt) = .ok r := by
    rw [checkResult_ok, ← hr]
    exact ⟨Word.toInt_bounds r, (BitVec.ofInt_toInt).symm⟩
  exact (execArb_next p s _).2 (.inr ⟨v, hread, .inr ⟨r, hcheck, rfl⟩⟩)

/-- A sum that is no Word takes the overflow fault, param 1, of the instruction word (R210). -/
theorem exec_arb_overflows {s : State} {p : Param} {v : Word} (hread : readParam s 1 p = .ok v)
    (hover : ¬ (minWord ≤ s.rb.toInt + v.toInt ∧ s.rb.toInt + v.toInt ≤ maxWord)) :
    exec (.arb p) s = .next (raiseFault ⟨.arithmeticOverflow, 1, s.instrWord.toInt⟩ s) := by
  have hcheck := (checkResult_error s 1 (s.rb.toInt + v.toInt) _).2 ⟨hover, rfl⟩
  exact (execArb_next p s _).2 (.inr ⟨v, hread, .inl ⟨_, hcheck, rfl⟩⟩)

/-- Settles O43: a sum in range is held exactly by a Word, and the fault value holds the instruction word exactly. -/
theorem adjustRelativeBaseAddsExactly : Obligations.AdjustRelativeBaseAddsExactly := by
  intro s p v hread
  refine ⟨fun hin => ?_, fun hover => ?_⟩
  · have hr := Word.toInt_ofInt (s.rb.toInt + v.toInt) hin
    exact ⟨_, exec_arb_adjusts hread hr, hr, rfl, rfl⟩
  · exact ⟨_, exec_arb_overflows hread hover, faultValue_word s.instrWord, rfl⟩

/-! ## Relative parameters after it -/

/-- Settles O44: from rb = 0 the sum is the value read itself, so rb becomes that Word, and R114 adds the
operand word to it. -/
theorem relativeParameterResolvesAfterAdjust : Obligations.RelativeParameterResolvesAfterAdjust := by
  intro s p k hrb hread
  have hr : k.toInt = s.rb.toInt + k.toInt := by rw [(Word.toInt_eq_zero s.rb).2 hrb, zero_add]
  refine ⟨_, exec_arb_adjusts hread hr, fun u n d hu h0 h1 => ?_⟩
  obtain rfl : u.rb = k := hu
  exact (resolve_ok u n _ _).2 ⟨h0, h1, rfl⟩

end Sys2Proof.Machine
end

section
/-! PROOFS. The host port (spec/45_host.md): what each command can do, said once (R222 to R231), the legal states under
every move (R220), and a core that is busy (R220). -/

namespace Sys2Proof.Machine

/-! ## LOAD -/

/-- A program longer than the array is refused (R222). -/
theorem loadProgram_too_long (program : List Word) (s : State) (h : s.config.memDepth < program.length) :
    loadProgram program s = (s, respond .imageTooLarge none s) := by
  simp [loadProgram, h]

/-- A LOAD that fits answers OK (R222). -/
theorem loadProgram_fits_code (program : List Word) (s : State) (h : program.length ≤ s.config.memDepth) :
    (loadProgram program s).2.code = .ok := by
  simp [loadProgram, not_lt.2 h, respond]

/-- Settles O49: an image that fits is the memory of a fresh machine, and one too long leaves everything. -/
theorem loadBuildsAFreshMachine : Obligations.LoadBuildsAFreshMachine := by
  intro s program hidle
  refine ⟨fun hfits => ?_, fun hlong => ?_⟩
  · have hcode := loadProgram_fits_code program s hfits
    refine ⟨_, _, issue_idle _ s hidle, hcode, fun a => ?_, ?_⟩
    · rw [loadProgram_fits program s hfits]
      exact (Memory.read_image program 0 a).trans (by simp)
    · rw [loadProgram_fits program s hfits]
      rfl
  · rw [issue_idle _ s hidle, accept, loadProgram_too_long program s hlong]
    exact ⟨_, rfl, rfl⟩

/-! ## READ_MEMORY and WRITE_MEMORY -/

theorem peek_of_error {a : Int} {s : State} {code : RespCode} (h : hostAddr s.config a = .error code) :
    peek a s = respond code none s := by
  simp [peek, h]

theorem peek_of_ok {a : Int} {s : State} {n : Nat} (h : hostAddr s.config a = .ok n) :
    peek a s = respond .ok (some (.word (s.read n))) s := by
  simp [peek, h]

theorem poke_of_error {a : Int} {s : State} {code : RespCode} (v : Word) (h : hostAddr s.config a = .error code) :
    poke a v s = (s, respond code none s) := by
  simp [poke, h]

theorem poke_of_ok {a : Int} {s : State} {n : Nat} (v : Word) (h : hostAddr s.config a = .ok n) :
    poke a v s = (s.write n v, respond .ok none (s.write n v)) := by
  simp [poke, h]

/-- An address that fails the check is answered by its error, and neither command changes anything (R224, R225). -/
theorem peek_poke_refused {s : State} {a : Int} {code : RespCode} (v : Word) (hidle : s.activity = .idle)
    (h : hostAddr s.config a = .error code) :
    (∃ r, issue (.readMemory a) s = (s, some r) ∧ r.code = code) ∧
      ∃ r, issue (.writeMemory a v) s = (s, some r) ∧ r.code = code := by
  rw [issue_idle _ s hidle, issue_idle _ s hidle, accept, accept, peek_of_error h, poke_of_error v h]
  exact ⟨⟨_, rfl, rfl⟩, _, rfl, rfl⟩

/-- Settles O50: the three ranges of an address are the three answers of its check. -/
theorem peekAndPokeReachOneWord : Obligations.PeekAndPokeReachOneWord := by
  intro s a v hidle hm
  rcases hostAddr_cases s.config a with ⟨hneg, he⟩ | ⟨h0, hbig, he⟩ | ⟨h0, hlt, he⟩
  · exact ⟨fun _ => peek_poke_refused v hidle he, fun h => by omega, fun h => by omega⟩
  · exact ⟨fun h => by omega, fun _ => peek_poke_refused v hidle he, fun h => by omega⟩
  · refine ⟨fun h => by omega, fun h => by omega, fun _ => ?_⟩
    rw [issue_idle _ s hidle, issue_idle _ s hidle, accept, accept, peek_of_ok he, poke_of_ok v he]
    exact ⟨⟨_, rfl, rfl, rfl⟩, _, _, rfl, rfl, State.read_write_same s _ v hm,
      fun x hx => State.read_write_other s _ x v hx, rfl⟩

/-! ## SNAPSHOT and RESTORE -/

/-- Taken cell by cell, a canonical memory inside the array is itself. -/
theorem Memory.ofCells_eq_self (m : Memory) (depth : Nat) (hm : m.wf) (hb : m.below depth) :
    Memory.ofCells depth m = m := by
  refine canonicalMemoriesThatReadAlikeAreEqual _ _ (Memory.ofCells_wf depth m) hm fun a => ?_
  by_cases ha : a < depth
  · exact Memory.read_ofCells depth m a ha
  · have above {n : Memory} (hn : n.below depth) : n.read a = 0#64 :=
      Memory.read_of_not_listed n a fun c hc e => ha (e ▸ hn c hc)
    rw [above (Memory.ofCells_below depth m), above hb]

/-- Settles O51: a legal state's memory is canonical and inside the array, so RESTORE installs the copy as it is. -/
theorem restoreReturnsToTheSnapshot : Obligations.RestoreReturnsToTheSnapshot := by
  intro s u hinv hs hu hconfig
  obtain ⟨-, hm, hb, -, -⟩ := hinv
  refine ⟨_, _, issue_idle _ s hs, rfl, rfl, ?_⟩
  have hmem : Memory.ofCells u.config.memDepth s.mem = s.mem := by
    rw [hconfig]
    exact Memory.ofCells_eq_self s.mem _ hm hb
  rw [issue_idle _ u hu, accept, restoreSnapshot, takeSnapshot, hmem]
  rfl

/-- Settles O52: the memory installed reads as the cells do over the array, and is canonical whatever their order. -/
theorem restoreTakesAHostBuiltSnapshot : Obligations.RestoreTakesAHostBuiltSnapshot := fun s image hidle =>
  ⟨_, _, issue_idle _ s hidle, rfl, fun a ha => Memory.read_ofCells _ image.mem a ha, Memory.ofCells_wf _ image.mem, rfl⟩

/-! ## FEED and TAKE_OUTPUT -/

theorem feedInput_empty {s : State} (v : Word) (h : s.feed = none) :
    feedInput v s = ({ s with feed := some v }, respond .ok none s) := by
  simp [feedInput, h]

theorem feedInput_full {s : State} {w : Word} (v : Word) (h : s.feed = some w) :
    feedInput v s = (s, respond .feedOverrun none s) := by
  simp [feedInput, h]

/-- Settles O53: the feed register and the latch each decide their command's answer. -/
theorem feedAndTakeOutput : Obligations.FeedAndTakeOutput := by
  intro s v w hidle
  rw [issue_idle _ s hidle, issue_idle _ s hidle, accept, accept]
  refine ⟨fun h => ?_, fun h => ?_, fun h => ?_, fun h => ?_⟩
  · rw [feedInput_empty v h]; exact ⟨_, rfl, rfl⟩
  · rw [feedInput_full v h]; exact ⟨_, rfl, rfl⟩
  · rw [takeOutput, h]; exact ⟨_, rfl, rfl⟩
  · rw [takeOutput, h]; exact ⟨_, rfl, rfl, rfl⟩

/-! ## A busy core -/

/-- Settles O57: a STEP or a RUN is answered by a turn and not at its issue. -/
theorem busyCoreAcceptsNoCommand : Obligations.BusyCoreAcceptsNoCommand := fun s si so =>
  ⟨fun hidle => ⟨issue_idle _ s hidle, issue_idle _ s hidle⟩, fun hbusy c => issue_busy c s hbusy,
    fun hrun hs => tick_run_terminal s si so hs hrun⟩

/-! ## The legal states under every move -/

/-- The command in progress is no part of what is legal. -/
theorem State.inv_withActivity (s : State) (a : Activity) (h : s.Inv) : State.Inv { s with activity := a } := h

/-- Neither is the feed register. -/
theorem State.inv_withFeed (s : State) (feed : Option Word) (h : s.Inv) : State.Inv { s with feed := feed } := h

/-- Neither is the input source. -/
theorem State.inv_withSource (s : State) (source : InputSource) (h : s.Inv) : State.Inv { s with source := source } := h

theorem loadProgram_inv (program : List Word) (s : State) (h : s.Inv) : (loadProgram program s).1.Inv := by
  rcases le_or_gt program.length s.config.memDepth with hfits | hlong
  · rw [loadProgram_fits program s hfits]
    exact freshState_inv _ 0 0 s h.1 (Memory.image_wf program 0) (Memory.image_below program _ hfits)
  · rw [loadProgram_too_long program s hlong]
    exact h

theorem poke_inv (a : Int) (v : Word) (s : State) (h : s.Inv) : (poke a v s).1.Inv := by
  rcases hostAddr_cases s.config a with ⟨-, he⟩ | ⟨-, -, he⟩ | ⟨h0, hlt, he⟩
  · rw [poke_of_error v he]; exact h
  · rw [poke_of_error v he]; exact h
  · rw [poke_of_ok v he]; exact State.inv_write s _ v (by omega) h

theorem restoreSnapshot_inv (image : Snapshot) (s : State) (hc : s.config.legal) : (restoreSnapshot image s).Inv :=
  freshState_inv _ _ _ s hc (Memory.ofCells_wf _ image.mem) (Memory.ofCells_below _ image.mem)

theorem feedInput_inv (v : Word) (s : State) (h : s.Inv) : (feedInput v s).1.Inv := by
  cases hfeed : s.feed with
  | none => rw [feedInput_empty v hfeed]; exact State.inv_withFeed s (some v) h
  | some w => rw [feedInput_full v hfeed]; exact h

theorem accept_inv (c : Command) (s : State) (h : s.Inv) : (accept c s).1.Inv := by
  cases c with
  | load program => exact loadProgram_inv program s h
  | step => exact State.inv_withActivity s .step h
  | run stopOnInput stopOnOutput => exact State.inv_withActivity s (.run stopOnInput stopOnOutput) h
  | writeMemory a v => exact poke_inv a v s h
  | restore image => exact restoreSnapshot_inv image s h.1
  | feed v => exact feedInput_inv v s h
  | readMemory | snapshot | takeOutput => exact h

theorem issue_inv (c : Command) (s : State) (h : s.Inv) : (issue c s).1.Inv := by
  by_cases hidle : s.activity = .idle
  · rw [issue_idle c s hidle]; exact accept_inv c s h
  · rw [issue_busy c s hidle]; exact h

theorem stepState_inv (s : State) (h : s.Inv) : (stepState s).Inv := stepKeepsTheInvariant s _ h (step_stepState s)

/-- A turn does nothing, or one step, after which the command goes on from Running or the core is idle again (R119,
R120, R275). -/
theorem tick_cases (s : State) :
    (s.activity = .idle ∧ (tick s).1 = s) ∨ ((tick s).1 = stepState s ∧ (stepState s).status = .running) ∨
    (tick s).1 = { stepState s with activity := .idle } := by
  cases ha : s.activity with
  | idle => exact .inl ⟨rfl, by simp [tick, ha]⟩
  | step => exact .inr (.inr (by simp [tick, ha, finishCommand]))
  | run si so =>
    rw [tick_run s si so ha]
    split_ifs with hgo
    · exact .inr (.inl ⟨rfl, hgo⟩)
    · exact .inr (.inr rfl)

theorem tick_inv (s : State) (h : s.Inv) : (tick s).1.Inv := by
  rcases tick_cases s with ⟨-, ht⟩ | ⟨ht, -⟩ | ht <;> rw [ht]
  · exact h
  · exact stepState_inv s h
  · exact State.inv_withActivity _ .idle (stepState_inv s h)

/-- R125. -/
theorem tick_running_of_busy (s : State) (h : (tick s).1.activity ≠ .idle) : (tick s).1.status = .running := by
  rcases tick_cases s with ⟨hidle, ht⟩ | ⟨ht, hrun⟩ | ht <;> rw [ht] at h ⊢
  · exact absurd hidle h
  · exact hrun
  · exact absurd rfl h

theorem resetPort_inv (s : State) (hc : s.config.legal) : (resetPort s).Inv :=
  State.inv_withActivity _ .idle (freshState_inv [] 0 0 s hc (Memory.image_wf [] 0) (by simp))

theorem resetInStep_inv (s : State) (hc : s.config.legal) : (resetInStep s).Inv := by
  obtain ⟨u, hu⟩ := resetInStep_eq s
  have hu' : u.config = s.config := by rw [← resetPort_config u, ← hu, resetInStep_config]
  rw [hu]
  exact resetPort_inv u (hu' ▸ hc)

/-- Settles O47: each kind of move keeps the legal states by its own lemma, the steps of a turn by O45, and a turn that
does not end its command left Running. -/
theorem everyMoveKeepsTheInvariant : Obligations.EveryMoveKeepsTheInvariant := by
  intro m s h
  cases m with
  | command c => exact ⟨issue_inv c s h, fun e => by cases e⟩
  | tick => exact ⟨tick_inv s h, fun _ => tick_running_of_busy s⟩
  | reset => exact ⟨resetPort_inv s h.1, fun e => by cases e⟩
  | resetInStep => exact ⟨resetInStep_inv s h.1, fun e => by cases e⟩
  | connect source => exact ⟨State.inv_withSource s source h, fun e => by cases e⟩

end Sys2Proof.Machine
end

section
/-! PROOFS. What a step reads (spec/45_host.md R228, spec/40_engine.md R117): an instruction begun in two states that
differ only in what no step reads answers alike from both. -/

namespace Sys2Proof.Machine

/-! ## What no step reads -/

/-- `s` with the output latch, the fault record and the sink's past of `p`, which no step reads: what a parameter or a
check of `s` answers, it answers of this state by definition. -/
def State.withPast (s p : State) : State :=
  { s with faultCause := p.faultCause, faultParam := p.faultParam, faultValue := p.faultValue, out := p.out,
           sink := p.sink }

/-- Step 1 of R117 leaves of two states alike in what a step reads only the past different. -/
theorem State.begin_eq_withPast {s s' : State} (hpc : s.pc = s'.pc) (hrb : s.rb = s'.rb) (hmem : s.mem = s'.mem)
    (hfeed : s.feed = s'.feed) (hsource : s.source = s'.source) (hconfig : s.config = s'.config)
    (hactivity : s.activity = s'.activity) : s'.begin = s.begin.withPast s' := by
  simp [State.begin, State.withPast, hpc, hrb, hmem, hfeed, hsource, hconfig, hactivity]

theorem fetchInstr_withPast (s p : State) : fetchInstr (s.withPast p) = fetchInstr s := rfl

theorem pollInput_withPast (s p : State) :
    pollInput (s.withPast p) = ((pollInput s).1, (pollInput s).2.withPast p) := by
  rcases pollInput_cases s with ⟨v, hfeed, hpoll⟩ | ⟨hfeed, hpoll⟩ <;> rw [hpoll]
  · exact pollInput_of_feed hfeed
  · exact pollInput_of_source hfeed rfl

/-! ## Going on alike -/

/-- From `s` to `t` and from `s'` to `t'` the block goes on alike: what a step reads and the status end alike, a fault
has the same record, and the same values are emitted, the last of them latched. -/
def GoOnAlike (s s' t t' : State) : Prop :=
  t.pc = t'.pc ∧ t.rb = t'.rb ∧ t.mem = t'.mem ∧ t.status = t'.status ∧ t.feed = t'.feed ∧ t.source = t'.source ∧
    (t.status = .faulted →
      t.faultCause = t'.faultCause ∧ t.faultParam = t'.faultParam ∧ t.faultValue = t'.faultValue) ∧
    ∃ emitted, t.sink = s.sink ++ emitted ∧ t'.sink = s'.sink ++ emitted ∧ (emitted ≠ [] → t.out = t'.out)

/-- Fault entry writes the record from the fault alone (spec/60_exceptions.md R258). -/
theorem goOnAlike_raiseFault (f : FaultInfo) (s p : State) :
    GoOnAlike s (s.withPast p) (raiseFault f s) (raiseFault f (s.withPast p)) :=
  ⟨rfl, rfl, rfl, rfl, rfl, rfl, fun _ => ⟨rfl, rfl, rfl⟩, [], by simp⟩

/-- A change that neither emits nor faults. -/
theorem goOnAlike_withPast {s t : State} (p : State) (hsink : t.sink = s.sink) (ht : t.status ≠ .faulted) :
    GoOnAlike s (s.withPast p) t (t.withPast p) :=
  ⟨rfl, rfl, rfl, rfl, rfl, rfl, fun e => absurd e ht, [], by simpa using hsink, by simp [State.withPast], by simp⟩

/-! ## Each instruction from both states -/

/-- The instruction `i`, begun in a state that has not faulted, answers alike whatever the past. -/
def ReadsNoPast (i : Instr) : Prop :=
  ∀ s p t : State, s.status ≠ .faulted → exec i s = .next t →
    ∃ t', exec i (s.withPast p) = .next t' ∧ GoOnAlike s (s.withPast p) t t'

theorem readsNoPast_of_alu (op : AluOp) (i : Instr) (p1 p2 p3 : Param)
    (hi : ∀ s, exec i s = settle s (aluInstr op p1 p2 p3 s)) : ReadsNoPast i := by
  intro s p t hs h
  simp only [hi] at h ⊢
  rcases (settle_next _ _ _).1 h with h | ⟨f, hf, rfl⟩
  · obtain ⟨a, b, d, h1, h2, h3, hr, rfl⟩ := (aluInstr_ok _ _ _ _ _ _).1 h
    refine ⟨_, (settle_next _ _ _).2 (.inl ((aluInstr_ok _ _ _ _ _ _).2 ⟨a, b, d, h1, h2, h3, hr, rfl⟩)), ?_⟩
    exact goOnAlike_withPast p rfl hs
  · have hf' := (aluInstr_error op p1 p2 p3 (s.withPast p) f).2 ((aluInstr_error op p1 p2 p3 s f).1 hf)
    exact ⟨_, (settle_next _ _ _).2 (.inr ⟨f, hf', rfl⟩), goOnAlike_raiseFault f s p⟩

theorem readsNoPast_of_jump (taken : Word → Bool) (i : Instr) (p1 p2 : Param)
    (hi : ∀ s, exec i s = settle s (jumpInstr taken p1 p2 s)) : ReadsNoPast i := by
  intro s p t hs h
  simp only [hi] at h ⊢
  rcases (settle_next _ _ _).1 h with h | ⟨f, hf, rfl⟩
  · obtain ⟨a, v, h1, h2, rfl⟩ := (jumpInstr_ok _ _ _ _ _).1 h
    refine ⟨_, (settle_next _ _ _).2 (.inl ((jumpInstr_ok _ _ _ _ _).2 ⟨a, v, h1, h2, rfl⟩)), ?_⟩
    split_ifs <;> exact goOnAlike_withPast p rfl hs
  · have hf' := (jumpInstr_error taken p1 p2 (s.withPast p) f).2 ((jumpInstr_error taken p1 p2 s f).1 hf)
    exact ⟨_, (settle_next _ _ _).2 (.inr ⟨f, hf', rfl⟩), goOnAlike_raiseFault f s p⟩

theorem inp_readsNoPast (p1 : Param) : ReadsNoPast (.inp p1) := by
  intro s p t hs h
  have hq := pollInput_withPast s p
  rcases (execInp_next _ _ _).1 h with ⟨f, hf, rfl⟩ | ⟨d, v, hd, hv, rfl⟩ | ⟨d, hd, hv, rfl⟩
  · exact ⟨_, (execInp_next _ _ _).2 (.inl ⟨f, hf, rfl⟩), goOnAlike_raiseFault f s p⟩
  · rw [hv] at hq
    refine ⟨_, exec_inp_of_value hd hq, ?_⟩
    exact goOnAlike_withPast p (by rw [pollInput_frame s]; rfl) (by simpa using hs)
  · rw [hv] at hq
    refine ⟨_, exec_inp_of_no_value hd hq, ?_⟩
    exact goOnAlike_withPast p (by rw [pollInput_frame s]) (by simp)

theorem out_readsNoPast (p1 : Param) : ReadsNoPast (.out p1) := by
  intro s p t hs h
  rcases (execOut_next _ _ _).1 h with ⟨f, hf, rfl⟩ | ⟨v, hr, -⟩
  · exact ⟨_, (execOut_next _ _ _).2 (.inl ⟨f, hf, rfl⟩), goOnAlike_raiseFault f s p⟩
  · obtain rfl := Host.Outcome.next.inj ((exec_out_emits hr).symm.trans h)
    have hstatus : (if s.stopOnOutput then .producedOutput else s.status : Status) ≠ .faulted := by
      split_ifs
      · simp
      · exact hs
    exact ⟨_, exec_out_emits (s := s.withPast p) hr,
      rfl, rfl, rfl, rfl, rfl, rfl, fun e => absurd e hstatus, [v], rfl, rfl, fun _ => rfl⟩

theorem arb_readsNoPast (p1 : Param) : ReadsNoPast (.arb p1) := by
  intro s p t hs h
  rcases (execArb_next _ _ _).1 h with ⟨f, hf, rfl⟩ | ⟨v, hr, ⟨f, hf, rfl⟩ | ⟨r, hc, rfl⟩⟩
  · exact ⟨_, (execArb_next _ _ _).2 (.inl ⟨f, hf, rfl⟩), goOnAlike_raiseFault f s p⟩
  · exact ⟨_, (execArb_next _ _ _).2 (.inr ⟨v, hr, .inl ⟨f, hf, rfl⟩⟩), goOnAlike_raiseFault f s p⟩
  · exact ⟨_, (execArb_next _ _ _).2 (.inr ⟨v, hr, .inr ⟨r, hc, rfl⟩⟩), goOnAlike_withPast p rfl hs⟩

theorem hlt_readsNoPast : ReadsNoPast .hlt := by
  intro s p t _ h
  obtain rfl := Host.Outcome.next.inj ((haltOnlySetsStatus s).symm.trans h)
  exact ⟨_, haltOnlySetsStatus _, goOnAlike_withPast p rfl (by simp)⟩

theorem readsNoPast (i : Instr) : ReadsNoPast i := by
  cases i with
  | add p1 p2 p3 => exact readsNoPast_of_alu .add _ p1 p2 p3 fun _ => rfl
  | mul p1 p2 p3 => exact readsNoPast_of_alu .multiply _ p1 p2 p3 fun _ => rfl
  | lt p1 p2 p3 => exact readsNoPast_of_alu .lessThan _ p1 p2 p3 fun _ => rfl
  | eq p1 p2 p3 => exact readsNoPast_of_alu .equals _ p1 p2 p3 fun _ => rfl
  | jt p1 p2 => exact readsNoPast_of_jump _ _ p1 p2 fun _ => rfl
  | jf p1 p2 => exact readsNoPast_of_jump _ _ p1 p2 fun _ => rfl
  | inp p1 => exact inp_readsNoPast p1
  | out p1 => exact out_readsNoPast p1
  | arb p1 => exact arb_readsNoPast p1
  | hlt => exact hlt_readsNoPast

/-- Settles O24: after step 1 of R117 the two states differ only in their past, so they fetch the same instruction or
take the same fault, and the instruction answers alike. -/
theorem stepReadsOnlyMemoryPcRbAndInputs : Obligations.StepReadsOnlyMemoryPcRbAndInputs := by
  intro s s' t t' hs hs' hpc hrb hmem hfeed hsource hconfig hactivity h h'
  have hbegin := State.begin_eq_withPast hpc hrb hmem hfeed hsource hconfig hactivity
  have hfetch : fetchInstr s'.begin = fetchInstr s.begin := by rw [hbegin, fetchInstr_withPast]
  change GoOnAlike s.begin (s.begin.withPast s') t t'
  rcases (step_next s t).1 h with ⟨hterm, -⟩ | ⟨-, f, hf, rfl⟩ | ⟨-, i, hf, he⟩
  · simp [hs] at hterm
  · rw [step_of_fetch_error s' f hs' (hfetch.trans hf), hbegin] at h'
    obtain rfl := Host.Outcome.next.inj h'
    exact goOnAlike_raiseFault f s.begin s'
  · obtain ⟨u, hu, halike⟩ := readsNoPast i s.begin s' t (by simp) he
    obtain rfl := step_eq_of_exec h' hs' (hfetch.trans hf) (hbegin ▸ hu)
    exact halike

end Sys2Proof.Machine
end

section
/-! PROOFS. The exceptions (spec/60_exceptions.md): what a faulting step can have faulted by, said once (R117, R250), and
from it the fault's frame (R258) and its record, per cause (R26, R252, R253); the order of the parameter faults (R256);
the overflow (R255). -/

namespace Sys2Proof.Machine

/-- Settles O12: the answer is `stepState s`. -/
theorem stepAlwaysAnswersANextState : Obligations.StepAlwaysAnswersANextState := fun s => ⟨_, step_stepState s⟩

/-! ## Where a step faults -/

/-- What the fault `f` of a step can come from, `s` being the state after step 1 of R117: steps 2 to 4 on the way to the
instruction, or the instruction's own check of a parameter or of its result. -/
inductive FaultSource (s : State) (f : FaultInfo) : Prop where
  /-- pc is no address of the array (R111) -/
  | pc (h : checkAddr s.config s.pc.toInt 0 = .error f)
  /-- the word at pc is illegal (R84) -/
  | word (h : decodeWord s.config.highDigits s.instrWord = .error f)
  /-- an operand word of a legal word lies outside the array, at MEM_DEPTH (R252) -/
  | operandWord (d : Decoded) (j : Nat) (hd : decodeWord s.config.highDigits s.instrWord = .ok d)
      (hj : 1 ≤ j ∧ j < opLen d.op) (he : s.pc.toInt + j = s.config.memDepth)
      (hf : f = ⟨.addressOutOfRange, j, s.config.memDepth⟩)
  /-- a parameter did not resolve (R256) -/
  | parameter (i : Instr) (k : Nat) (p : Param) (hi : fetchInstr s = .ok i) (hk : 1 ≤ k ∧ k ≤ 3)
      (hp : (instrParams i)[k - 1]? = some p) (h : resolve s k p = .error f)
  /-- the exact result is no Word (R255) -/
  | overflow (i : Instr) (k : Nat) (r : Int) (hi : fetchInstr s = .ok i)
      (hk : (k = 3 ∧ ∃ p1 p2 p3, i = .add p1 p2 p3 ∨ i = .mul p1 p2 p3) ∨ (k = 1 ∧ ∃ p1, i = .arb p1))
      (h : checkResult s k r = .error f)

theorem fetchInstr_faultSource {s : State} {f : FaultInfo} (h : fetchInstr s = .error f) : FaultSource s f := by
  rcases fetchInstr_error s f h with hneg | hbig | ⟨-, -, hd⟩ | ⟨-, -, d, hd, j, h1, hlt, he, hf⟩
  · exact .pc ((checkAddr_error _ _ _ _).2 (.inl hneg))
  · exact .pc ((checkAddr_error _ _ _ _).2 (.inr hbig))
  · exact .word hd
  · exact .operandWord d j hd ⟨h1, hlt⟩ he hf

/-- The effect of a fetched instruction that faults is fault entry, by one of the instruction's own checks. -/
theorem Effect.faultSource {i : Instr} {s t : State} (he : Effect i s t) (hi : fetchInstr s = .ok i)
    (hs : s.status ≠ .faulted) (ht : t.status = .faulted) : ∃ f, FaultSource s f ∧ t = raiseFault f s := by
  cases he with
  | addressFault f k p h hp hk => exact ⟨f, .parameter i k p hi hk hp h, rfl⟩
  | overflow f k r h hk => exact ⟨f, .overflow i k r hi hk h, rfl⟩
  | output =>
    split_ifs at ht
    exact absurd ht hs
  | input => simp [hs] at ht
  | suspend | halt => cases ht
  | store | jump | fallThrough | adjust => exact absurd ht hs

/-- A step that faults is fault entry from the state after step 1 of R117 (R258). -/
theorem step_faultSource {s t : State} (h : step s = .next t) (hs : s.status ≠ .faulted) (ht : t.status = .faulted) :
    ∃ f, FaultSource s.begin f ∧ t = raiseFault f s.begin := by
  rcases (step_next s t).1 h with ⟨-, rfl⟩ | ⟨-, f, hf, rfl⟩ | ⟨-, i, hi, he⟩
  · exact absurd ht hs
  · exact ⟨f, fetchInstr_faultSource hf, rfl⟩
  · exact (exec_effect i _ t he).faultSource hi (by simp) ht

/-! ## The fault's frame -/

theorem checkAddr_error_cause {c : Config} {a : Int} {k : Nat} {f : FaultInfo} (h : checkAddr c a k = .error f) :
    f.cause = .negativeAddress ∨ f.cause = .addressOutOfRange := by
  rcases (checkAddr_error _ _ _ _).1 h with ⟨-, rfl⟩ | ⟨-, -, rfl⟩ <;> simp

theorem FaultSource.cause_ne_none {s : State} {f : FaultInfo} (h : FaultSource s f) : f.cause ≠ .none := by
  cases h with
  | pc h | parameter i k p _ _ _ h => rcases checkAddr_error_cause h with hc | hc <;> simp [hc]
  | word h => exact (decodeWord_error_fits s _ _ f h).1
  | operandWord d j _ _ _ hf => simp [hf]
  | overflow i k r _ _ h => simp [((checkResult_error _ _ _ _).1 h).2]

/-- The turn of a RUN whose step faults ends it, with OK (spec/40_engine.md R120). -/
theorem tick_run_faulted {s : State} {si so : Bool} (ha : s.activity = .run si so)
    (ht : (stepState s).status = .faulted) : tick s = finishCommand .ok (stepState s) := by
  have hcode : runCode si (stepState s).status = .ok := by simp [runCode, ht]
  rw [tick_run s si so ha, if_neg (by simp [ht]), hcode]

/-- Settles O17: fault entry writes status and the record, and a STEP or a RUN answers from the state it leaves. -/
theorem faultChangesOnlyStatusAndRecord : Obligations.FaultChangesOnlyStatusAndRecord := by
  intro s t h hs ht
  obtain ⟨f, hf, hentry⟩ := step_faultSource h hs ht
  obtain rfl := stepState_of_next s t h
  refine ⟨?_, ?_, fun ha => ⟨_, stepCommand_eq s ha, rfl, ht⟩, fun si so ha => ⟨_, tick_run_faulted ha ht, rfl, ht⟩⟩
  · rw [hentry]; rfl
  · rw [hentry]; exact hf.cause_ne_none

/-! ## The record -/

/-- The parameter and the value of a step's fault fit the record's 2 and W+1 bits (R26). -/
theorem FaultSource.record_exact {s : State} {f : FaultInfo} (hc : s.config.legal) (h : FaultSource s f) :
    (BitVec.ofNat 2 f.param).toNat = f.param ∧ (BitVec.ofInt 65 f.value).toInt = f.value := by
  cases h with
  | pc h =>
    rcases (checkAddr_error _ _ _ _).1 h with ⟨-, rfl⟩ | ⟨-, -, rfl⟩ <;> exact ⟨rfl, faultValue_word s.pc⟩
  | word h =>
    obtain ⟨hv, hk⟩ := decodeWord_error_record _ _ _ h
    exact ⟨faultParam_exact _ (by omega), hv ▸ faultValue_word _⟩
  | operandWord d j _ hj _ hf =>
    have hlen := (opLen_pos d.op).2
    have hdepth := hc.2
    subst hf
    exact ⟨faultParam_exact j (by omega), faultValue_exact s.config.memDepth (by omega)⟩
  | parameter i k p _ hk _ h =>
    have hvalue := faultValue_exact _ (paramAddr_bounds s k p hk.2)
    rcases (resolve_error _ _ _ _).1 h with ⟨-, rfl⟩ | ⟨-, -, rfl⟩ <;>
      exact ⟨faultParam_exact k (by omega), hvalue⟩
  | overflow i k r _ hk h =>
    obtain ⟨-, rfl⟩ := (checkResult_error _ _ _ _).1 h
    have hk3 : k < 4 := by rcases hk with ⟨rfl, -⟩ | ⟨rfl, -⟩ <;> decide
    exact ⟨faultParam_exact k hk3, faultValue_word s.instrWord⟩

/-- The words that are no opcode's (R84): negative, with an undefined opcode, or refused for their high digits. -/
theorem invalidOpcode_reason {hd : HighDigits} {w : Word}
    (h : w.toInt < 0 ∨ highDigitsRefused hd w = true ∨ opOfCode (w.toNat % 100) = none) :
    w.toInt < 0 ∨ w.toNat % 100 ∉ [1, 2, 3, 4, 5, 6, 7, 8, 9, 99] ∨ (hd = .fault ∧ 100000 ≤ w.toInt) := by
  rcases h with hneg | hhigh | hop
  · exact .inl hneg
  · obtain ⟨hfault, hbig⟩ := (highDigitsRefused_eq_true hd w).1 hhigh
    rcases lt_or_ge w.toInt 0 with hneg | h0
    · exact .inl hneg
    · have := Word.toNat_of_nonneg w h0
      exact .inr (.inr ⟨hfault, by omega⟩)
  · exact .inr (.inl ((opOfCode_eq_none _).1 hop))

/-- The write targets by opcode number (R88). -/
theorem writeTarget_opCode {op : Op} {k : Nat} (hk : k ∈ writeTargets op) :
    (k = 3 ∧ opCode op ∈ [1, 2, 7, 8]) ∨ (k = 1 ∧ opCode op = 3) := by
  cases op <;> simp_all [writeTargets, opCode]

/-- The opcode of a fetched instruction stands in the last two digits of the instruction word (R86). -/
theorem fetchInstr_opCode {s : State} {i : Instr} (h : fetchInstr s = .ok i) :
    s.instrWord.toNat % 100 = opCode (shapeOf i).op := by
  obtain ⟨-, d, hd, -, rfl⟩ := (fetchInstr_ok s i).1 h
  obtain ⟨-, -, hop, -⟩ := (decodeWord_ok _ _ d).1 hd
  rw [shapeOf_buildInstr_op, hop]

/-- Settles O18: the record holds the fault exactly, and each source of a fault says what it holds. -/
theorem faultRecordNamesTheOffence : Obligations.FaultRecordNamesTheOffence := by
  intro s t hc hs h ht
  obtain ⟨f, hf, rfl⟩ := step_faultSource h (by rintro e; simp [e] at hs) ht
  obtain ⟨hparam, hvalue⟩ := hf.record_exact (s := s.begin) hc
  simp only [raiseFault_faultCause, raiseFault_faultParam, raiseFault_faultValue, hparam, hvalue]
  cases hf with
  | pc h =>
    rcases (checkAddr_error _ _ _ _).1 h with ⟨hneg, rfl⟩ | ⟨-, hbig, rfl⟩
    · exact ⟨hneg, .inl ⟨rfl, rfl⟩⟩
    · exact ⟨hbig, .inl ⟨rfl, rfl⟩⟩
  | word h =>
    rcases decodeWord_error _ _ f h with ⟨hbad, rfl⟩ | ⟨k, hk, -, hbad, rfl⟩ | ⟨op, hop, k, hk, hbad, rfl⟩
    · exact ⟨rfl, rfl, invalidOpcode_reason hbad⟩
    · exact ⟨hk, rfl, hbad⟩
    · have htarget := writeTarget_opCode hk
      rw [← (opOfCode_eq_some _ op).1 hop] at htarget
      exact ⟨rfl, hbad, htarget⟩
  | operandWord d j hd hj he hf =>
    subst hf
    exact ⟨le_rfl, .inr (.inr ⟨d, hd, hj.1, hj.2, he.symm⟩)⟩
  | parameter i k p hi hk hp h =>
    rcases (resolve_error _ _ _ _).1 h with ⟨hneg, rfl⟩ | ⟨-, hbig, rfl⟩
    · exact ⟨hneg, .inr ⟨i, p, hi, hk.1, hp, rfl⟩⟩
    · exact ⟨hbig, .inr (.inl ⟨i, p, hi, hk.1, hp, rfl⟩)⟩
  | overflow i k r hi hk h =>
    obtain ⟨-, rfl⟩ := (checkResult_error _ _ _ _).1 h
    have hop : (s.read s.pc.toInt.toNat).toNat % 100 = opCode (shapeOf i).op := fetchInstr_opCode hi
    refine ⟨rfl, ?_⟩
    rcases hk with ⟨rfl, p1, p2, p3, rfl | rfl⟩ | ⟨rfl, p1, rfl⟩ <;> simp [hop, shapeOf, opCode]

/-! ## Parameter faults -/

/-- The four ALU instructions run one rule. -/
theorem exec_alu_eq {i : Instr} {p1 p2 p3 : Param}
    (hi : i ∈ [Instr.add p1 p2 p3, .mul p1 p2 p3, .lt p1 p2 p3, .eq p1 p2 p3]) (s : State) :
    ∃ op, exec i s = settle s (aluInstr op p1 p2 p3 s) := by
  simp only [List.mem_cons, List.not_mem_nil, or_false] at hi
  rcases hi with rfl | rfl | rfl | rfl <;> exact ⟨_, rfl⟩

/-- A fault of a parameter is the ALU instruction's, the parameters before it having resolved (R256). -/
theorem exec_alu_fault {i : Instr} {p1 p2 p3 : Param} {s : State} {f : FaultInfo}
    (hi : i ∈ [Instr.add p1 p2 p3, .mul p1 p2 p3, .lt p1 p2 p3, .eq p1 p2 p3])
    (hf : resolve s 1 p1 = .error f ∨ ∃ a, readParam s 1 p1 = .ok a ∧ (resolve s 2 p2 = .error f ∨
      ∃ b, readParam s 2 p2 = .ok b ∧ resolve s 3 p3 = .error f)) : exec i s = .next (raiseFault f s) := by
  obtain ⟨op, hexec⟩ := exec_alu_eq hi s
  have herror : aluInstr op p1 p2 p3 s = .error f := by
    rw [aluInstr_error]
    rcases hf with h1 | ⟨a, ha, h2 | ⟨b, hb, h3⟩⟩
    · exact .inl h1
    · exact .inr ⟨a, ha, .inl h2⟩
    · exact .inr ⟨a, ha, .inr ⟨b, hb, .inl h3⟩⟩
  rw [hexec, herror]
  rfl

/-- Input, Output and AdjustRelativeBase fault at their one parameter. -/
theorem exec_unary_fault {i : Instr} {p1 : Param} {s : State} {f : FaultInfo}
    (hi : i = .inp p1 ∨ i = .out p1 ∨ i = .arb p1) (hf : resolve s 1 p1 = .error f) :
    exec i s = .next (raiseFault f s) := by
  rcases hi with rfl | rfl | rfl
  · exact (execInp_next p1 s _).2 (.inl ⟨f, hf, rfl⟩)
  · exact (execOut_next p1 s _).2 (.inl ⟨f, hf, rfl⟩)
  · exact (execArb_next p1 s _).2 (.inl ⟨f, hf, rfl⟩)

/-- Settles O27: the ALU instructions, the jumps and the one-parameter instructions, each with its own lemma. -/
theorem parameterFaultsComeInAscendingOrder : Obligations.ParameterFaultsComeInAscendingOrder := by
  intro s p1 p2 p3 f a b
  refine ⟨fun h1 i hi => ?_, fun ha h2 i hi => ?_, fun ha hb h3 i hi => ?_⟩
  · have hcases : i ∈ [Instr.add p1 p2 p3, .mul p1 p2 p3, .lt p1 p2 p3, .eq p1 p2 p3] ∨
        (i = .jt p1 p2 ∨ i = .jf p1 p2) ∨ (i = .inp p1 ∨ i = .out p1 ∨ i = .arb p1) := by
      simp only [List.mem_cons, List.not_mem_nil, or_false] at hi ⊢
      tauto
    rcases hcases with halu | hjump | hone
    · exact exec_alu_fault halu (.inl h1)
    · exact exec_jump_fault hjump (.inl h1)
    · exact exec_unary_fault hone h1
  · have hcases : i ∈ [Instr.add p1 p2 p3, .mul p1 p2 p3, .lt p1 p2 p3, .eq p1 p2 p3] ∨
        (i = .jt p1 p2 ∨ i = .jf p1 p2) := by
      simp only [List.mem_cons, List.not_mem_nil, or_false] at hi ⊢
      tauto
    rcases hcases with halu | hjump
    · exact exec_alu_fault halu (.inr ⟨a, ha, .inl h2⟩)
    · exact exec_jump_fault hjump (.inr ⟨a, ha, h2⟩)
  · exact exec_alu_fault hi (.inr ⟨a, ha, .inr ⟨b, hb, h3⟩⟩)

/-! ## Overflow -/

/-- An ALU instruction whose exact result is no Word takes the overflow fault, param 3, of the instruction word (R140). -/
theorem settle_aluInstr_overflows {op : AluOp} {s : State} {p1 p2 p3 : Param} {a b : Word} {d : Nat}
    (h1 : readParam s 1 p1 = .ok a) (h2 : readParam s 2 p2 = .ok b) (h3 : resolve s 3 p3 = .ok d)
    (hover : ¬ (minWord ≤ aluExact op a.toInt b.toInt ∧ aluExact op a.toInt b.toInt ≤ maxWord)) :
    settle s (aluInstr op p1 p2 p3 s) = .next (raiseFault ⟨.arithmeticOverflow, 3, s.instrWord.toInt⟩ s) := by
  have hcheck := (checkResult_error s 3 (aluExact op a.toInt b.toInt) _).2 ⟨hover, rfl⟩
  rw [(aluInstr_error op p1 p2 p3 s _).2 (.inr ⟨a, h1, .inr ⟨b, h2, .inr ⟨d, h3, hcheck⟩⟩⟩)]
  rfl

@[simp] theorem pollInput_faultCause (s : State) : (pollInput s).2.faultCause = s.faultCause := by
  rw [pollInput_frame s]

/-- A parameter's fault is no overflow. -/
theorem resolve_error_ne_overflow {s : State} {k : Nat} {p : Param} {f : FaultInfo} (h : resolve s k p = .error f) :
    f.cause ≠ .arithmeticOverflow := by
  rcases checkAddr_error_cause h with hc | hc <;> simp [hc]

/-- Only Add, Multiply and AdjustRelativeBase can raise the overflow (R255). -/
theorem Effect.raisesOverflow {i : Instr} {s t : State} (he : Effect i s t) (hs : s.faultCause ≠ .arithmeticOverflow)
    (ht : t.faultCause = .arithmeticOverflow) :
    (∃ p1 p2 p3, i = .add p1 p2 p3 ∨ i = .mul p1 p2 p3) ∨ ∃ p1, i = .arb p1 := by
  cases he with
  | addressFault f k p h => exact absurd ht (resolve_error_ne_overflow h)
  | overflow f k r _ hi => exact hi.imp And.right And.right
  | output => split_ifs at ht <;> exact absurd ht hs
  | input | suspend => simp [hs] at ht
  | store | jump | fallThrough | adjust | halt => exact absurd ht hs

/-- An overflow raised by the ALU's rule is that of its exact result. -/
theorem settle_aluInstr_raisesOverflow {op : AluOp} {s t : State} {p1 p2 p3 : Param}
    (h : settle s (aluInstr op p1 p2 p3 s) = .next t) (hs : s.faultCause ≠ .arithmeticOverflow)
    (ht : t.faultCause = .arithmeticOverflow) :
    ∃ a b, readParam s 1 p1 = .ok a ∧ readParam s 2 p2 = .ok b ∧
      ¬ (minWord ≤ aluExact op a.toInt b.toInt ∧ aluExact op a.toInt b.toInt ≤ maxWord) := by
  rcases (settle_next _ _ _).1 h with hok | ⟨f, herror, rfl⟩
  · obtain ⟨a, b, d, -, -, -, -, rfl⟩ := (aluInstr_ok _ _ _ _ _ _).1 hok
    exact absurd ht hs
  · rcases (aluInstr_error _ _ _ _ _ _).1 herror with h1 | ⟨a, ha, h2 | ⟨b, hb, h3 | ⟨d, -, hcheck⟩⟩⟩
    · exact absurd ht (resolve_error_ne_overflow h1)
    · exact absurd ht (resolve_error_ne_overflow h2)
    · exact absurd ht (resolve_error_ne_overflow h3)
    · exact ⟨a, b, ha, hb, ((checkResult_error _ _ _ _).1 hcheck).1⟩

/-- An overflow raised by AdjustRelativeBase is that of the new rb (R210). -/
theorem exec_arb_raisesOverflow {s t : State} {p1 : Param} (h : exec (.arb p1) s = .next t)
    (hs : s.faultCause ≠ .arithmeticOverflow) (ht : t.faultCause = .arithmeticOverflow) :
    ∃ v, readParam s 1 p1 = .ok v ∧ ¬ (minWord ≤ s.rb.toInt + v.toInt ∧ s.rb.toInt + v.toInt ≤ maxWord) := by
  rcases (execArb_next _ _ _).1 h with ⟨f, h1, rfl⟩ | ⟨v, hv, ⟨f, hcheck, rfl⟩ | ⟨r, -, rfl⟩⟩
  · exact absurd ht (resolve_error_ne_overflow h1)
  · exact ⟨v, hv, ((checkResult_error _ _ _ _).1 hcheck).1⟩
  · exact absurd ht hs

/-- Settles O31: an exact result that is no Word fails the check of the result, and nothing else raises the overflow. -/
theorem overflowFaultsExactlyWhenNoWord : Obligations.OverflowFaultsExactlyWhenNoWord := by
  refine ⟨fun s p1 p2 p3 a b d h1 h2 h3 i r hi hover => ?_, fun s p1 v hread hover => ?_, fun s t i h hs ht => ?_⟩
  · refine ⟨raiseFault ⟨.arithmeticOverflow, 3, s.instrWord.toInt⟩ s, ?_, faultValue_word s.instrWord, rfl⟩
    rcases hi with ⟨rfl, rfl⟩ | ⟨rfl, rfl⟩
    · exact settle_aluInstr_overflows (op := .add) h1 h2 h3 hover
    · exact settle_aluInstr_overflows (op := .multiply) h1 h2 h3 hover
  · exact ⟨_, exec_arb_overflows hread hover, faultValue_word s.instrWord, rfl⟩
  · rcases (exec_effect i s t h).raisesOverflow hs ht with ⟨p1, p2, p3, rfl | rfl⟩ | ⟨p1, rfl⟩
    · obtain ⟨a, b, ha, hb, hover⟩ := settle_aluInstr_raisesOverflow (op := .add) h hs ht
      exact ⟨p1, p2, p3, a, b, ha, .inl ⟨rfl, hb, hover⟩⟩
    · obtain ⟨a, b, ha, hb, hover⟩ := settle_aluInstr_raisesOverflow (op := .multiply) h hs ht
      exact ⟨p1, p2, p3, a, b, ha, .inr (.inl ⟨rfl, hb, hover⟩)⟩
    · obtain ⟨v, hv, hover⟩ := exec_arb_raisesOverflow h hs ht
      exact ⟨p1, p1, p1, v, v, hv, .inr (.inr ⟨rfl, hover⟩)⟩

end Sys2Proof.Machine
end

section
/-! PROOFS. Reset (spec/70_reset_and_hazards.md): the block it leaves (R280), reset inside a step (R280), and the first STEP
or RUN after it (R282). -/

namespace Sys2Proof.Machine

/-! ## The idle core -/

/-- An idle core waits (spec/60_exceptions.md R275). -/
theorem tick_idle (s : State) (h : s.activity = .idle) : tick s = (s, none) := by simp [tick, h]

/-- In an idle core there is no step for reset to fall into. -/
theorem resetInStep_idle (s : State) (h : s.activity = .idle) : resetInStep s = resetPort s := by simp [resetInStep, h]

@[simp] theorem resetInStep_activity (s : State) : (resetInStep s).activity = .idle := by
  obtain ⟨u, hu⟩ := resetInStep_eq s
  rw [hu, resetPort_activity]

/-! ## Reset inside a step -/

/-- Of the state it falls in, reset keeps the parameters, the source and the sink, and nothing else (R280). -/
theorem resetPort_eq_of_config_eq (s t : State) (h : t.config = s.config) :
    resetPort t = { resetPort s with source := t.source, sink := t.sink } := by
  simp only [resetPort, freshState, h]

/-- Settles O60: the abandoned step keeps the parameters, so reset leaves only its source and its sink, and the core it
leaves is idle. -/
theorem resetInsideAStepLeavesOnlySourceAndSink : Obligations.ResetInsideAStepLeavesOnlySourceAndSink := by
  refine fun s => ⟨resetInStep_idle s, fun hbusy => ?_, rfl, tick_idle _ (resetInStep_activity s)⟩
  calc applyMove .resetInStep s
    _ = resetPort (stepState s) := resetInStep_busy s hbusy
    _ = { resetPort s with source := (stepState s).source, sink := (stepState s).sink } :=
      resetPort_eq_of_config_eq s _ (stepState_config s)

/-! ## The reset values -/

/-- Settles O46: the state after reset is one that reset leaves, of legal parameters. -/
theorem resetStateIsLegal : Obligations.ResetStateIsLegal :=
  ⟨resetPort_inv State.reset (by decide), rfl⟩

/-- R280: reset is LOAD of the empty program, which fits every array. -/
theorem loadProgram_nil (s : State) (h : s.activity = .idle) : (loadProgram [] s).1 = resetPort s := by
  rw [loadProgram_fits [] s (Nat.zero_le _)]
  exact (State.withActivity_idle (freshState [] 0 0 s) h).symm

/-- Reset abandons a command in progress without a trace (R280). -/
theorem resetPort_startCommand (a : Activity) (s : State) : resetPort (startCommand a s).1 = resetPort s := rfl

/-- Settles O58: the register image, LOAD of the empty program, and a STEP or a RUN, issued and abandoned. -/
theorem resetGivesTheResetValues : Obligations.ResetGivesTheResetValues := by
  refine fun s => ⟨fun a => Memory.read_nil a, rfl, fun hidle => ?_, fun hidle c si so hc => ?_, rfl, rfl,
    tick_idle _ (resetPort_activity s)⟩
  · rw [issue_idle _ s hidle]
    exact loadProgram_nil s hidle
  · rw [issue_idle c s hidle]
    rcases hc with rfl | rfl
    · exact ⟨startCommand_response .step s, resetPort_startCommand .step s⟩
    · exact ⟨startCommand_response (.run si so) s, resetPort_startCommand (.run si so) s⟩

/-! ## The first step after reset -/

/-- The Word 0 is no instruction word (spec/30_encoding.md R84). -/
theorem decodeWord_zero (hd : HighDigits) : decodeWord hd 0 = .error ⟨.invalidOpcode, 0, 0⟩ := by
  cases hd with
  | ignore => rfl
  | fault => rfl

/-- A step at pc = 0 over a Word 0 takes the decoder's fault (R282). -/
theorem stepState_zero_word (s : State) (hs : s.status.terminal = false) (hc : s.config.legal) (hpc : s.pc = 0)
    (hread : s.read 0 = 0) : stepState s = raiseFault ⟨.invalidOpcode, 0, 0⟩ s.begin := by
  have hip : s.begin.pc.toInt = 0 := by simp [hpc]
  have hword : s.begin.instrWord = 0 := by rw [State.instrWord, hip]; exact hread
  have hlt : s.begin.pc.toInt < s.begin.config.memDepth := by rw [hip]; exact_mod_cast hc.1
  refine stepState_of_next s _ (step_of_fetch_error s _ hs (fetchInstr_illegal_word s.begin _ hip.ge hlt ?_))
  rw [hword]
  exact decodeWord_zero _

/-- The step of any command in a block just reset (R282). -/
theorem stepState_after_reset (s : State) (a : Activity) (hc : s.config.legal) :
    stepState { resetPort s with activity := a } =
      raiseFault ⟨.invalidOpcode, 0, 0⟩ { resetPort s with activity := a } :=
  stepState_zero_word _ rfl hc rfl rfl

/-- Settles O59: the first step of a STEP or a RUN is over the Word 0, and its fault ends the command. -/
theorem stepAfterResetFaultsInvalidOpcode : Obligations.StepAfterResetFaultsInvalidOpcode := by
  intro s hc
  have hstep : stepState (resetPort s) = raiseFault ⟨.invalidOpcode, 0, 0⟩ (resetPort s) :=
    stepState_after_reset s .idle hc
  rw [stepCommand_eq _ (resetPort_activity s), hstep]
  refine ⟨⟨_, rfl, rfl, rfl, rfl, rfl⟩, rfl, fun si so => ?_⟩
  have hrun := stepState_after_reset s (.run si so) hc
  have hturn := tick_run_faulted (s := { resetPort s with activity := .run si so }) rfl (by rw [hrun]; rfl)
  rw [hrun] at hturn
  rw [issue_idle _ _ (resetPort_activity s)]
  exact ⟨_, _, hturn, rfl, rfl, rfl, rfl, rfl⟩

end Sys2Proof.Machine
end
